-- ==== Sys2Proof/Word.lean ====
section
/-! DEFINITION. The words, the channel and PLL names, and the fixed-size tables indexed by them. -/

namespace Sys2Proof

/-- One data byte or one register address of the chip's register space (20_memory.md R60). -/
abbrev Byte := BitVec 8

/-- One command word (30_encoding.md R90). -/
abbrev CmdWord := BitVec 128

/-- The three output channels and their multisynths, "indices 0, 1, 2" (00_scope.md R6, NCH). -/
inductive Channel where
  | ch0
  | ch1
  | ch2
deriving DecidableEq, Repr

/-- The two PLLs (00_scope.md R6, NPLL). -/
inductive Pll where
  | pllA
  | pllB
deriving DecidableEq, Repr

/-- An array `X[0..2]` of the spec: one entry for each channel. -/
structure PerChannel (α : Type) where
  ch0 : α
  ch1 : α
  ch2 : α
deriving DecidableEq, Repr

/-- An array `X[0..1]` of the spec: one entry for each PLL. -/
structure PerPll (α : Type) where
  pllA : α
  pllB : α
deriving DecidableEq, Repr

namespace PerChannel

def get {α : Type} (t : PerChannel α) : Channel → α
  | .ch0 => t.ch0
  | .ch1 => t.ch1
  | .ch2 => t.ch2

def set {α : Type} (t : PerChannel α) (k : Channel) (v : α) : PerChannel α :=
  match k with
  | .ch0 => { t with ch0 := v }
  | .ch1 => { t with ch1 := v }
  | .ch2 => { t with ch2 := v }

/-- `X[0..2] <- (v, v, v)`. -/
def all {α : Type} (v : α) : PerChannel α := ⟨v, v, v⟩

end PerChannel

def PerPll.get {α : Type} (t : PerPll α) : Pll → α
  | .pllA => t.pllA
  | .pllB => t.pllB

end Sys2Proof
end

