-- ==== Sys2Proof/Syntax.lean ====
section
/-! DEFINITION. The commands, one constructor for each row of spec/opcode_table.json. -/

namespace Sys2Proof

/-- A command with its operand fields, each of the width 30_encoding.md R91 gives it. An operand that
does not fit its field cannot be written; one outside the source's domain can, and faults in the
command's rule (R92, R94). -/
inductive Instr where
  /-- INIT: the drive-power levels of channels 0, 1, 2. -/
  | init (p0 p1 p2 : BitVec 2)
  /-- SET_XTAL: the crystal frequency in 0.1 Hz units, and the immediate-strobe flag. -/
  | setXtal (x : BitVec 32) (rst : Bool)
  /-- SET_FREQ: the three requested frequencies in Hz, 0 = disabled. -/
  | setFreq (f0 f1 f2 : BitVec 32)
  /-- ENC_PLL: the PLL selector, multiplier, numerator, denominator. -/
  | encPll (sel : BitVec 8) (a b c : BitVec 32)
  /-- ENC_MS_INT: the multisynth selector, divider, R-shift. -/
  | encMsInt (sel : BitVec 8) (d : BitVec 32) (r : BitVec 8)
  /-- ENC_MS_FRAC: the multisynth selector, divider, numerator, denominator, R-shift. -/
  | encMsFrac (sel : BitVec 8) (d b c : BitVec 32) (r : BitVec 8)
  /-- DISABLE: the channel index. -/
  | disable (ch : BitVec 8)
deriving DecidableEq, Repr

end Sys2Proof
end

