-- ==== Sys2Proof/Decode.lean ====
section
/-! DEFINITION. The 128-bit command word (30_encoding.md): bit slices, the opcode map, the decoder, the
encoder. -/

namespace Sys2Proof

/-- `N[hi:lo]` on naturals (00_scope.md R10). -/
def bits (hi lo n : Nat) : Nat := n / 2 ^ lo % 2 ^ (hi - lo + 1)

/-- The seven opcodes (30_encoding.md R93). -/
inductive Opcode where
  | init
  | setXtal
  | setFreq
  | encPll
  | encMsInt
  | encMsFrac
  | disable
deriving DecidableEq, Repr

/-- OPC of each command (30_encoding.md R91). -/
def Opcode.byte : Opcode → Byte
  | .init => 0x01
  | .setXtal => 0x02
  | .setFreq => 0x03
  | .encPll => 0x10
  | .encMsInt => 0x11
  | .encMsFrac => 0x12
  | .disable => 0x13

/-- The opcode map read the other way: none for an unassigned opcode (30_encoding.md R93, R94). -/
def Opcode.ofByte? (b : Byte) : Option Opcode :=
  if b = 0x01 then some .init
  else if b = 0x02 then some .setXtal
  else if b = 0x03 then some .setFreq
  else if b = 0x10 then some .encPll
  else if b = 0x11 then some .encMsInt
  else if b = 0x12 then some .encMsFrac
  else if b = 0x13 then some .disable
  else none

/-- The `match` column of the table of 30_encoding.md R93. -/
def Opcode.matchWord : Opcode → CmdWord
  | .init => 0x01000000000000000000000000000000
  | .setXtal => 0x02000000000000000000000000000000
  | .setFreq => 0x03000000000000000000000000000000
  | .encPll => 0x10000000000000000000000000000000
  | .encMsInt => 0x11000000000000000000000000000000
  | .encMsFrac => 0x12000000000000000000000000000000
  | .disable => 0x13000000000000000000000000000000

/-- The `mask` column of the table of 30_encoding.md R93: the opcode and the reserved bits. -/
def Opcode.mask : Opcode → CmdWord
  | .init => 0xFFFFFFFFFFFFFFFFFFFFFFFFFFFFFFC0
  | .setXtal => 0xFFFFFFFFFFFFFFFFFFFFFFFE00000000
  | .setFreq => 0xFFFFFFFF000000000000000000000000
  | .encPll => 0xFFFFFF00000000000000000000000000
  | .encMsInt => 0xFFFFFFFFFFFFFFFFFFFF000000000000
  | .encMsFrac => 0xFFFF0000000000000000000000000000
  | .disable => 0xFFFFFFFFFFFFFFFFFFFFFFFFFFFFFF00

/-- RESERVED_MASK(OPC): the bits of [119:0] that no operand field uses (30_encoding.md R93). -/
def Opcode.reservedMask (op : Opcode) : CmdWord :=
  op.mask &&& 0x00FFFFFFFFFFFFFFFFFFFFFFFFFFFFFF

/-- OPC = W[127:120] (30_encoding.md R90). -/
def opcodeOf (w : CmdWord) : Byte := w.extractLsb' 120 8

/-- The operand fields of each opcode (30_encoding.md R91). -/
def operandsOf (op : Opcode) (w : CmdWord) : Instr :=
  match op with
  | .init => .init (w.extractLsb' 0 2) (w.extractLsb' 2 2) (w.extractLsb' 4 2)
  | .setXtal => .setXtal (w.extractLsb' 0 32) (w.getLsbD 32)
  | .setFreq => .setFreq (w.extractLsb' 0 32) (w.extractLsb' 32 32) (w.extractLsb' 64 32)
  | .encPll =>
      .encPll (w.extractLsb' 0 8) (w.extractLsb' 8 32) (w.extractLsb' 40 32) (w.extractLsb' 72 32)
  | .encMsInt => .encMsInt (w.extractLsb' 0 8) (w.extractLsb' 8 32) (w.extractLsb' 40 8)
  | .encMsFrac =>
      .encMsFrac (w.extractLsb' 0 8) (w.extractLsb' 8 32) (w.extractLsb' 40 32)
        (w.extractLsb' 72 32) (w.extractLsb' 104 8)
  | .disable => .disable (w.extractLsb' 0 8)

/-- Why a word is no command. Both are ILLEGAL_COMMAND (30_encoding.md R93, R94). -/
inductive Rejection where
  /-- The opcode is not one of the seven. -/
  | unknownOpcode
  /-- A bit that no operand field of the opcode uses is 1. -/
  | reservedBits
deriving DecidableEq, Repr

/-- What the decoder reads from a word. -/
inductive Decoded where
  | instr (i : Instr)
  | rejected (r : Rejection)
deriving DecidableEq, Repr

/-- `decode(W)`, total on every 128-bit word: the opcode first, then the reserved bits
(30_encoding.md R93, 60_exceptions.md R226). -/
def decode (w : CmdWord) : Decoded :=
  match Opcode.ofByte? (opcodeOf w) with
  | none => .rejected .unknownOpcode
  | some op =>
    if w &&& op.reservedMask = 0 then .instr (operandsOf op w) else .rejected .reservedBits

/-- The instruction decoded from a table word: a command is one 128-bit word, so the bits above `nbits`
are 0 and there is nothing to lay out. -/
def decodeTableWord (nbits w : Nat) : Option Instr :=
  match decode (BitVec.ofNat 128 (w % 2 ^ nbits)) with
  | .instr i => some i
  | .rejected _ => none

/-- The opcode of a command. -/
def Instr.opcode : Instr → Opcode
  | .init _ _ _ => .init
  | .setXtal _ _ => .setXtal
  | .setFreq _ _ _ => .setFreq
  | .encPll _ _ _ _ => .encPll
  | .encMsInt _ _ _ => .encMsInt
  | .encMsFrac _ _ _ _ _ => .encMsFrac
  | .disable _ => .disable

/-- A field value at bit `lo` of a word, every other bit 0. -/
def place {n : Nat} (lo : Nat) (v : BitVec n) : CmdWord := v.setWidth 128 <<< lo

/-- The operand fields of a command in their places, every reserved bit 0 (30_encoding.md R91). -/
def operandBits : Instr → CmdWord
  | .init p0 p1 p2 => place 0 p0 ||| place 2 p1 ||| place 4 p2
  | .setXtal x rst => place 0 x ||| place 32 (BitVec.ofBool rst)
  | .setFreq f0 f1 f2 => place 0 f0 ||| place 32 f1 ||| place 64 f2
  | .encPll sel a b c => place 0 sel ||| place 8 a ||| place 40 b ||| place 72 c
  | .encMsInt sel d r => place 0 sel ||| place 8 d ||| place 40 r
  | .encMsFrac sel d b c r =>
      place 0 sel ||| place 8 d ||| place 40 b ||| place 72 c ||| place 104 r
  | .disable ch => place 0 ch

/-- The word of a command (30_encoding.md R90, R91). -/
def encode (i : Instr) : CmdWord := place 120 i.opcode.byte ||| operandBits i

end Sys2Proof
end

