-- ==== Sys2Proof/Config.lean ====
section
/-! DEFINITION. The constants and the implementation parameters of 00_scope.md R6. -/

namespace Sys2Proof

namespace Config

/-- FPLL_CEIL: "the PLL speed ceiling used by every divider search, for both PLLs". -/
def fpllCeil : Nat := 900000000

/-- DMIN, DMAX: the multisynth divider range. -/
def divMin : Nat := 6
def divMax : Nat := 900

/-- RMAX: the largest R-divider shift count. -/
def rMax : Nat := 7

/-- AMIN, AMAX: the PLL integer multiplier range. -/
def multMin : Nat := 15
def multMax : Nat := 90

/-- DENOM: the fixed fractional denominator. -/
def denom : Nat := 0xFFFFF

/-- FRAC_MAX: the largest numerator or denominator. -/
def fracMax : Nat := 0xFFFFF

/-- CTRL_EN: the base value of an enabled channel control byte. -/
def ctrlEn : Byte := 0x4C

/-- CTRL_PDN: the control byte "powered down / disabled". -/
def ctrlPdn : Byte := 0x80

/-- RESET_VAL: the value written to the PLL-reset register. -/
def resetVal : Byte := 0xA0

/-- SRC_A, SRC_B: the PLL-source-select bits of the control byte (20_memory.md R70). -/
def srcBits : Pll → Byte
  | .pllA => 0x00
  | .pllB => 0x20

/-- EARLY_RETURN_SKIPS_RESET of the one machine `core`: the spec leaves it OPEN, with no default
(43_controller.md R196, D19). It has no body, so nothing can be proved of its value.
DESIGN CHOICE, safe (log entry 4). -/
opaque earlyReturnSkipsReset : Bool

end Config

/-- REGMAP, the register numbers of the chip (20_memory.md R66). The spec: "A model must take them as
parameters, not constants". -/
structure RegMap where
  devAddr : BitVec 7
  ctrl : PerChannel Byte
  pllBase : PerPll Byte
  msBase : PerChannel Byte
  pllReset : Byte
deriving DecidableEq, Repr

/-- The defaults the spec gives for REGMAP. PRESUMED (the spec: "from general knowledge, not in
source"), unsafe (log entry 3). -/
def RegMap.defaults : RegMap where
  devAddr := 0x60
  ctrl := ⟨16, 17, 18⟩
  pllBase := ⟨26, 34⟩
  msBase := ⟨42, 50, 58⟩
  pllReset := 177

/-- The parameters of 00_scope.md R6 that the spec does not fix. -/
structure Params where
  regMap : RegMap
  /-- R_POS: the bit position of the R-divider code in byte 2 of a parameter block. -/
  rPos : Nat
  /-- Whether the channel-1 early return also skips the batched reset strobe. -/
  earlyReturnSkipsReset : Bool
deriving DecidableEq, Repr

/-- The parameters at their defaults: REGMAP and R_POS as the spec gives them (PRESUMED, log entry 3),
the open one left without a value (log entry 4). -/
def Params.defaults : Params where
  regMap := RegMap.defaults
  rPos := 4
  earlyReturnSkipsReset := Config.earlyReturnSkipsReset

/-- Every register the block can write, with how many consecutive registers it takes. -/
def RegMap.blocks (m : RegMap) : List (Nat × Nat) :=
  [(m.ctrl.ch0.toNat, 1), (m.ctrl.ch1.toNat, 1), (m.ctrl.ch2.toNat, 1),
   (m.pllBase.pllA.toNat, 8), (m.pllBase.pllB.toNat, 8),
   (m.msBase.ch0.toNat, 8), (m.msBase.ch1.toNat, 8), (m.msBase.ch2.toNat, 8),
   (m.pllReset.toNat, 1)]

/-- The blocks of R66 are different registers of an 8-bit space, and no burst passes register 255
(20_memory.md R60, R63, R66). -/
def RegMap.wf (m : RegMap) : Bool :=
  decide (m.blocks.Pairwise fun x y => x.1 + x.2 ≤ y.1 ∨ y.1 + y.2 ≤ x.1) &&
    m.blocks.all fun x => decide (x.1 + x.2 ≤ 256)

/-- R_POS leaves the R-divider code inside byte 2 and clear of P1[17:16] (41_codec.md R121). -/
def Params.wf (p : Params) : Bool :=
  p.regMap.wf && decide (2 ≤ p.rPos) && decide (p.rPos ≤ 5)

end Sys2Proof
end

