-- ==== Sys2Proof/Machine/State.lean ====
section
/-! DEFINITION. The block's state (10_state.md), the transactions it emits (20_memory.md R62), the inputs
the host gives it (60_exceptions.md R235), and the state after reset (70_reset_and_hazards.md R250). -/

namespace Sys2Proof.Machine

/-- The fault causes (60_exceptions.md R221); code 0, NONE, is no cause. -/
inductive Cause where
  | illegalCommand
  | badSelector
  | xtalZero
  | xtalUnset
  | pllMultRange
  | fracNumRange
  | fracDenRange
  | msDivRange
  | rDivRange
deriving DecidableEq, Repr

/-- One transaction on the register bus (20_memory.md R62): `Single(reg, v)` or `Burst(reg, [v0, ...])`. -/
inductive Transaction where
  | single (reg v : Byte)
  | burst (reg : Byte) (vs : List Byte)
deriving DecidableEq, Repr

/-- What the host sends (60_exceptions.md R235): a command word, or the reset input. -/
inductive HostInput where
  | command (w : CmdWord)
  | reset
deriving DecidableEq, Repr

/-- FLT, the fault register (10_state.md R21 table, R32). -/
structure FaultReg where
  v : Bool
  code : Byte
  op : Byte
deriving DecidableEq, Repr

/-- The reasons the machine stops. There are none: a fault of the spec is a state the block enters and
stays in (60_exceptions.md R222, R224), so a step always answers a next state. Nothing raises this type;
it is safe, having no value (log entry 5). -/
inductive Fault where
deriving DecidableEq, Repr

/-- The reasons a command is given no meaning. -/
inductive Refusal where
  /-- Raised by an arm of `exec` whose command has no meaning yet: safe. No arm raises it now. -/
  | notModelled (mnemonic : String)
deriving DecidableEq, Repr

/-- The state: the block's fields of 10_state.md R21, and five fields of the model's own, without which
one step function could not carry the host's commands and the block's output. -/
structure State where
  /-- XTAL, in units of 0.1 Hz; 0 is "unset" (R22). -/
  xtal : BitVec 32
  /-- F[k], the requested frequency in Hz; 0 is "disabled" (R23). -/
  f : PerChannel (BitVec 32)
  /-- FV[k], whether F[k] is a valid basis for change detection (R24). -/
  fv : PerChannel Bool
  /-- DIV[k], the cached integer divider; 0 is "nothing cached" (R25). -/
  div : PerChannel (BitVec 10)
  /-- RSH[k], the cached R-divider shift count (R26). -/
  rsh : PerChannel (BitVec 3)
  /-- PWR[k], the drive-power level (R27). -/
  pwr : PerChannel (BitVec 2)
  /-- PLLB, the PLL-B current frequency in Hz; 0 is "never computed" (R29). -/
  pllb : BitVec 32
  /-- OWED, a batched PLL-reset pulse is owed (R31). -/
  owed : Bool
  /-- FLT, the fault register (R32). -/
  flt : FaultReg
  /-- The model's own: the diagnostic mask SET_FREQ returns (43_controller.md R201; log entry 8). -/
  diag : BitVec 3
  /-- The model's own: the transaction log, oldest first (20_memory.md R65; log entry 10). -/
  log : List Transaction
  /-- The model's own: what the host has sent and the block has not taken, oldest first (log entry 1). -/
  port : List HostInput
  /-- The model's own: the index of the next command of the host's sequence (00_scope.md R12). -/
  pc : Nat
  /-- The model's own: the parameters of 00_scope.md R6, which no step writes (log entry 2). -/
  params : Params
deriving DecidableEq, Repr

/-- The block right after reset (70_reset_and_hazards.md R250), with nothing sent and nothing emitted. -/
def State.reset : State where
  xtal := 0
  f := .all 0
  fv := .all true
  div := .all 0
  rsh := .all 0
  pwr := .all 0
  pllb := 0
  owed := false
  flt := ⟨false, 0, 0⟩
  diag := 0
  log := []
  port := []
  pc := 0
  params := Params.defaults

end Sys2Proof.Machine
end

