-- ==== Sys2Proof/Machine/Operands.lean ====
section
/-! DEFINITION. Operand forms: the selectors, and the wiring of channels to PLLs (30_encoding.md R92,
20_memory.md R66). Every other operand is an unsigned field read with `toNat`. -/

namespace Sys2Proof

/-- SEL of ENC_PLL: 0 = PLL A, 1 = PLL B (30_encoding.md R92). -/
def Pll.ofSel? (sel : Nat) : Option Pll :=
  match sel with
  | 0 => some .pllA
  | 1 => some .pllB
  | _ => none

/-- SEL of ENC_MS_INT and ENC_MS_FRAC, and CH of DISABLE: 0..2 (30_encoding.md R92). -/
def Channel.ofSel? (sel : Nat) : Option Channel :=
  match sel with
  | 0 => some .ch0
  | 1 => some .ch1
  | 2 => some .ch2
  | _ => none

/-- The channel number, and its bit in the diagnostic mask (43_controller.md R201). -/
def Channel.index : Channel → Nat
  | .ch0 => 0
  | .ch1 => 1
  | .ch2 => 2

/-- "A feeds channel 0; B feeds channels 1 and 2" (20_memory.md R66). -/
def Channel.pll : Channel → Pll
  | .ch0 => .pllA
  | .ch1 => .pllB
  | .ch2 => .pllB

end Sys2Proof

namespace Sys2Proof.Machine

/-- The control register of a channel, under the machine's REGMAP (20_memory.md R66). -/
def ctrlReg (k : Channel) (s : State) : Byte := s.params.regMap.ctrl.get k

/-- The base of a PLL's parameter block (20_memory.md R66). -/
def pllBase (p : Pll) (s : State) : Byte := s.params.regMap.pllBase.get p

/-- The base of a multisynth's parameter block (20_memory.md R66). -/
def msBase (k : Channel) (s : State) : Byte := s.params.regMap.msBase.get k

/-- `CTRL_BYTE(k) = 0x4C | PWR[k] | SRC(k)`, the enable byte (20_memory.md R68-R70). -/
def enableByte (k : Channel) (s : State) : Byte :=
  Config.ctrlEn ||| (s.pwr.get k).setWidth 8 ||| Config.srcBits k.pll

end Sys2Proof.Machine
end

