-- ==== Sys2Proof/Machine/Flags.lean ====
section
/-! DEFINITION. The flags: change detection FV, the owed reset OWED, the diagnostic mask, the fault
register (10_state.md R24, R31, R32). -/

namespace Sys2Proof.Machine

/-- Channel k counts as changed when FV[k] = 0 or its new frequency differs from F[k]
(43_controller.md R186). -/
def changed (k : Channel) (f : BitVec 32) (s : State) : Bool :=
  !s.fv.get k || f != s.f.get k

/-- `S.FV[0..2] <- (1, 1, 1)` or `(0, 0, 0)`. -/
def setAllFv (v : Bool) (s : State) : State := { s with fv := .all v }

/-- `S.OWED <- v`. -/
def setOwed (v : Bool) (s : State) : State := { s with owed := v }

/-- `diag <- 0b000`. -/
def clearDiag (s : State) : State := { s with diag := 0 }

/-- `diag[k] <- 1`. -/
def setDiag (k : Channel) (s : State) : State := { s with diag := s.diag ||| (1 <<< k.index) }

/-- FLT.CODE of each cause (60_exceptions.md R221). -/
def Cause.code : Cause → Byte
  | .illegalCommand => 1
  | .badSelector => 2
  | .xtalZero => 3
  | .xtalUnset => 4
  | .pllMultRange => 5
  | .fracNumRange => 6
  | .fracDenRange => 7
  | .msDivRange => 8
  | .rDivRange => 9

/-- `S.FLT.V <- 1`, `S.FLT.CODE <- code` and `S.FLT.OP <- opcode` (60_exceptions.md R222). -/
def setFault (c : Cause) (op : Byte) (s : State) : State := { s with flt := ⟨true, c.code, op⟩ }

end Sys2Proof.Machine
end

