-- ==== Sys2Proof/Machine/Ops.lean ====
section
/-! DEFINITION. The shared operations: emitting transactions, running a command to its end or its fault,
fault entry, the reset input, and taking the host's next input. -/

namespace Sys2Proof.Machine

/-! ### Emitting -/

/-- "emitting a transaction appends it to the transaction log and nothing else" (20_memory.md R65). -/
def emit (t : Transaction) (s : State) : State := { s with log := s.log ++ [t] }

/-- `Single(reg, v)` (00_scope.md R11). -/
def single (reg v : Byte) (s : State) : State := emit (.single reg v) s

/-- `Burst(reg, [v0, ..., vn])` (00_scope.md R11). -/
def burst (reg : Byte) (vs : List Byte) (s : State) : State := emit (.burst reg vs) s

/-- One single for each byte, to registers reg, reg+1, ... in increasing order (41_codec.md R130). -/
def singles (reg : Byte) (vs : List Byte) (s : State) : State :=
  match vs with
  | [] => s
  | v :: rest => singles (reg + 1) rest (single reg v s)

/-- The PLL-reset strobe, `Single(PLL_RESET, 0xA0)` (20_memory.md R72). -/
def strobe (s : State) : State := single s.params.regMap.pllReset Config.resetVal s

/-- The enable byte of channel k to its control register (20_memory.md R70). -/
def enable (k : Channel) (s : State) : State := single (ctrlReg k s) (enableByte k s) s

/-- `Disable(k)` for a channel that exists: the byte 0x80, and `S.DIV[k] <- 0` (41_codec.md R133). -/
def disableChannel (k : Channel) (s : State) : State :=
  let s := single (ctrlReg k s) Config.ctrlPdn s
  { s with div := s.div.set k 0 }

/-! ### Running -/

/-- Where a part of a command has got to: its end, with a result, or a `raise Fault(code)`, with the state
the block had at that point. -/
inductive Ran (α : Type) where
  | done (a : α) (s : State)
  | raised (c : Cause) (s : State)

/-- Go on after a part of a command, unless it raised: "No later statement of it runs"
(60_exceptions.md R222). -/
def Ran.andThen {α β : Type} (m : Ran α) (k : α → State → Ran β) : Ran β :=
  match m with
  | .done a s => k a s
  | .raised c s => .raised c s

/-- `if bad: raise Fault(c)`, else go on. -/
def guardFault {α : Type} (bad : Prop) [Decidable bad] (c : Cause) (s : State) (k : Ran α) : Ran α :=
  if bad then .raised c s else k

/-- Fault entry (60_exceptions.md R222): the transactions and fields the command wrote before the raise
stay, and FLT is written. "control goes nowhere". -/
def takeFault (c : Cause) (op : Byte) (s : State) : State := setFault c op s

/-- One command: refused without any effect while the block is faulted (60_exceptions.md R224), else run
to its end or to its fault. A refused command and a faulted one are next states (log entries 5, 6). -/
def runCommand (op : Byte) (body : State → Ran Unit) (s : State) :
    Host.Outcome State Fault Refusal :=
  if s.flt.v then .next s
  else
    match body s with
    | .done _ s' => .next s'
    | .raised c s' => .next (takeFault c op s')

/-- A word that decodes to no command (30_encoding.md R93): ILLEGAL_COMMAND, with FLT.OP the raw opcode
byte. -/
def execIllegal (w : CmdWord) (s : State) : Host.Outcome State Fault Refusal :=
  runCommand (opcodeOf w) (fun s => .raised .illegalCommand s) s

/-! ### The host -/

/-- The reset input: every field of 10_state.md to its reset value, nothing emitted, the only way out of
the faulted state (70_reset_and_hazards.md R250, R251). The log of what was emitted, what the host has
still to send, and the parameters are no state of the block and stay (log entry 9). -/
def resetBlock (s : State) : State :=
  { State.reset with log := s.log, port := s.port, pc := s.pc, params := s.params }

/-- The block's next input, and the state in which it has been taken off the port. A command advances the
index of the host's sequence by one (00_scope.md R12). -/
def takeInput (s : State) : Option (HostInput × State) :=
  match s.port with
  | [] => none
  | .reset :: rest => some (.reset, { s with port := rest })
  | .command w :: rest => some (.command w, { s with port := rest, pc := s.pc + 1 })

end Sys2Proof.Machine
end

