-- ==== Sys2Proof/Machine/Codec.lean ====
section
/-! DEFINITION. The Register Codec (41_codec.md): P-words, parameter blocks, and the commands ENC_PLL,
ENC_MS_INT, ENC_MS_FRAC and DISABLE. A command and the controller's internal call share one body (§ head
of 41_codec.md): the command reads its selector first. -/

namespace Sys2Proof.Machine

/-- The packed parameter words P1, P2, P3. -/
structure PWords where
  p1 : Nat
  p2 : Nat
  p3 : Nat
deriving DecidableEq, Repr

/-- `PWords(a, b, c)`, exact integer arithmetic (41_codec.md R120). The subtraction of 512 is exact for
every caller, since a >= 6. -/
def pWords (a b c : Nat) : PWords where
  p1 := 128 * a + 128 * b / c - 512
  p2 := 128 * b - c * (128 * b / c)
  p3 := c

/-- The low 8 bits of a natural, as a byte. -/
def byteOf (n : Nat) : Byte := BitVec.ofNat 8 n

/-- `PBlock(P1, P2, P3, rcode)` (41_codec.md R121). P-word bits above 18/20/20 are not written (R122). -/
def pBlock (w : PWords) (rcode : Nat) : List Byte :=
  [byteOf (bits 15 8 w.p3),
   byteOf (bits 7 0 w.p3),
   byteOf (bits 17 16 w.p1 ||| rcode),
   byteOf (bits 15 8 w.p1),
   byteOf (bits 7 0 w.p1),
   byteOf (bits 19 16 w.p3 <<< 4 ||| bits 19 16 w.p2),
   byteOf (bits 15 8 w.p2),
   byteOf (bits 7 0 w.p2)]

/-- `rcode = r << R_POS` (41_codec.md R121). -/
def rCode (r : Nat) (s : State) : Nat := r <<< s.params.rPos

/-- A divider or multiplier with its fraction and R-shift, as read back from a parameter block. -/
structure BlockValue where
  a : Nat
  b : Nat
  c : Nat
  r : Nat
deriving DecidableEq, Repr

/-- Reading a parameter block back (41_codec.md R124); none for a list that is not 8 bytes. -/
def decodeBlock (rPos : Nat) (vs : List Byte) : Option BlockValue :=
  match vs with
  | [v0, v1, v2, v3, v4, v5, v6, v7] =>
    let p3 := bits 7 4 v5.toNat <<< 16 ||| v0.toNat <<< 8 ||| v1.toNat
    let p2 := bits 3 0 v5.toNat <<< 16 ||| v6.toNat <<< 8 ||| v7.toNat
    let p1 := bits 1 0 v2.toNat <<< 16 ||| v3.toNat <<< 8 ||| v4.toNat
    let t := (p1 + 512) % 128
    some { a := (p1 + 512) / 128, b := (p3 * t + p2) / 128, c := p3,
           r := bits (rPos + 2) rPos v2.toNat }
  | _ => none

/-- `EncPll` after its selector check (41_codec.md R125). -/
def encPll (p : Pll) (a b c : Nat) (s : State) : Ran Unit :=
  guardFault (a < Config.multMin ∨ Config.multMax < a) .pllMultRange s <|
  guardFault (Config.fracMax < b) .fracNumRange s <|
  guardFault (c < 1 ∨ Config.fracMax < c) .fracDenRange s <|
  .done () (burst (pllBase p s) (pBlock (pWords a b c) 0) s)

/-- `EncMsInt` after its selector check (41_codec.md R128). -/
def encMsInt (k : Channel) (d r : Nat) (s : State) : Ran Unit :=
  guardFault (d < Config.divMin ∨ Config.divMax < d ∨ d % 2 ≠ 0) .msDivRange s <|
  guardFault (Config.rMax < r) .rDivRange s <|
  .done () (burst (msBase k s) (pBlock (pWords d 0 1) (rCode r s)) s)

/-- `EncMsFrac` after its selector check: eight singles (41_codec.md R130). -/
def encMsFrac (k : Channel) (d b c r : Nat) (s : State) : Ran Unit :=
  guardFault (d < Config.divMin ∨ Config.divMax < d) .msDivRange s <|
  guardFault (Config.fracMax < b) .fracNumRange s <|
  guardFault (c < 1 ∨ Config.fracMax < c) .fracDenRange s <|
  guardFault (Config.rMax < r) .rDivRange s <|
  .done () (singles (msBase k s) (pBlock (pWords d b c) (rCode r s)) s)

/-- A selector operand, checked before anything else (41_codec.md R125, R128, R130, R133). -/
def withSel {α β : Type} (sel : Option α) (s : State) (body : α → Ran β) : Ran β :=
  match sel with
  | none => .raised .badSelector s
  | some x => body x

/-! ### The commands -/

/-- ENC_PLL (41_codec.md R125, R126). -/
def execEncPll (sel : BitVec 8) (a b c : BitVec 32) (s : State) :
    Host.Outcome State Fault Refusal :=
  runCommand Opcode.encPll.byte
    (fun s => withSel (Pll.ofSel? sel.toNat) s fun p => encPll p a.toNat b.toNat c.toNat s) s

/-- ENC_MS_INT (41_codec.md R128, R129). -/
def execEncMsInt (sel : BitVec 8) (d : BitVec 32) (r : BitVec 8) (s : State) :
    Host.Outcome State Fault Refusal :=
  runCommand Opcode.encMsInt.byte
    (fun s => withSel (Channel.ofSel? sel.toNat) s fun k => encMsInt k d.toNat r.toNat s) s

/-- ENC_MS_FRAC (41_codec.md R130, R131). -/
def execEncMsFrac (sel : BitVec 8) (d b c : BitVec 32) (r : BitVec 8) (s : State) :
    Host.Outcome State Fault Refusal :=
  runCommand Opcode.encMsFrac.byte
    (fun s => withSel (Channel.ofSel? sel.toNat) s fun k =>
      encMsFrac k d.toNat b.toNat c.toNat r.toNat s) s

/-- DISABLE (41_codec.md R133, R134). -/
def execDisable (ch : BitVec 8) (s : State) : Host.Outcome State Fault Refusal :=
  runCommand Opcode.disable.byte
    (fun s => withSel (Channel.ofSel? ch.toNat) s fun k => .done () (disableChannel k s)) s

end Sys2Proof.Machine
end

