-- ==== Sys2Proof/Machine/Search.lean ====
section
/-! DEFINITION. The controller's internal functions (42_search.md): the divider search, the PLL
parameters, the cache gate, one channel's program, and channel 2's fractional derivation. -/

namespace Sys2Proof.Machine

/-- What a divider search yields (42_search.md R151-R154). -/
inductive Found where
  /-- The first quotient is below 6. -/
  | underflow
  /-- The loop ended with r > 7. -/
  | rTooLarge
  | ok (d r pll : Nat)
deriving DecidableEq, Repr

/-- Rounds enough for any 32-bit dividend: 2^32 halved 32 times is below 900 (log entry 7). -/
def loopFuel : Nat := 32

/-- `while d > 900: r <- r + 1; d <- d div 2` (42_search.md R152, R154). -/
def halveLoop (fuel r d : Nat) : Nat × Nat :=
  match fuel with
  | 0 => (r, d)
  | n + 1 => if Config.divMax < d then halveLoop n (r + 1) (d / 2) else (r, d)

/-- `d & ~1` (00_scope.md R10): d with bit 0 cleared. -/
def clearBit0 (d : Nat) : Nat := d - d % 2

/-- `Search(f)`, for f >= 1 (42_search.md R154). -/
def search (f : Nat) : Found :=
  let q := Config.fpllCeil / f
  if q < Config.divMin then .underflow
  else
    let (r, d) := halveLoop loopFuel 0 q
    let d := clearBit0 d
    if Config.rMax < r then .rTooLarge else .ok d r (d * f * 2 ^ r)

/-- `PllParams(pll)` once XTAL is known to be nonzero: the multiplier and the numerator, each product
formed in full before its division (42_search.md R155). -/
def pllParams (x pll : Nat) : Nat × Nat :=
  let mult := pll * 10 / x
  (mult, (pll - mult * x / 10) * Config.denom * 10 / x)

/-- `CacheGate(k, d, r, immediate)` (42_search.md R156). -/
def cacheGate (k : Channel) (d r : Nat) (immediate : Bool) (s : State) : Ran Unit :=
  if d ≠ (s.div.get k).toNat ∨ r ≠ (s.rsh.get k).toNat then
    (encMsInt k d r s).andThen fun _ s =>
      let s := enable k s
      let s := { s with div := s.div.set k (BitVec.ofNat 10 d),
                        rsh := s.rsh.set k (BitVec.ofNat 3 r) }
      .done () (if immediate then strobe s else setOwed true s)
  else .done () s

/-- `ProgramChannel(k, f, p, immediate)`, for f >= 1, with p the PLL of channel k (42_search.md R157): the
PLL_freq of the search, or none after an underflow. -/
def programChannel (k : Channel) (f : Nat) (immediate : Bool) (s : State) : Ran (Option Nat) :=
  match search f with
  | .underflow => .done none (setDiag k (disableChannel k s))
  | .rTooLarge => .raised .rDivRange s
  | .ok d r pll =>
    guardFault (s.xtal = 0) .xtalUnset s <|
    let (mult, num) := pllParams s.xtal.toNat pll
    (encPll k.pll mult num Config.denom s).andThen fun _ s =>
    (cacheGate k d r immediate s).andThen fun _ s =>
    .done (some pll) s

/-- `while d > 900: r <- r + 1; sf <- sf * 2; d <- pllb div sf` (42_search.md R161, R162): r and sf. -/
def doubleLoop (fuel pllb r sf : Nat) : Nat × Nat :=
  match fuel with
  | 0 => (r, sf)
  | n + 1 => if Config.divMax < pllb / sf then doubleLoop n pllb (r + 1) (sf * 2) else (r, sf)

/-- `Ch2Frac(pllb, f2)`, for f2 >= 1 (42_search.md R162). -/
def ch2Frac (pllb f2 : Nat) (s : State) : Ran Unit :=
  if pllb / f2 < Config.divMin then .done () (setDiag .ch2 (disableChannel .ch2 s))
  else
    let (r, sf) := doubleLoop loopFuel pllb 0 f2
    let num := pllb % sf * Config.denom / sf
    let den := if num ≠ 0 then Config.denom else 1
    (encMsFrac .ch2 (pllb / sf) num den r s).andThen fun _ s =>
      let s := enable .ch2 s
      let s := { s with div := s.div.set .ch2 0 }
      .done () (setOwed true s)

end Sys2Proof.Machine
end

