-- ==== Sys2Proof/Machine/Controller.lean ====
section
/-! DEFINITION. The Synthesis Controller's commands INIT, SET_XTAL and SET_FREQ (43_controller.md). -/

namespace Sys2Proof.Machine

/-- `Init(p0, p1, p2)` (43_controller.md R181). -/
def initBlock (p0 p1 p2 : BitVec 2) (s : State) : State :=
  let s := { s with pwr := ⟨p0, p1, p2⟩ }
  let s := disableChannel .ch2 (disableChannel .ch1 (disableChannel .ch0 s))
  setAllFv true { s with f := .all 0 }

/-- `SetXtal(x, rst)` (43_controller.md R183). -/
def setXtal (x : BitVec 32) (rst : Bool) (s : State) : Ran Unit :=
  guardFault (x = 0) .xtalZero s <|
  let s := setAllFv false { s with xtal := x }
  .done () (if rst then strobe s else s)

/-- Entry of SET_FREQ, after the three comparisons: OWED and diag cleared, the three frequencies latched
and made valid (43_controller.md R185, R186). -/
def latch (f0 f1 f2 : BitVec 32) (s : State) : State :=
  setAllFv true { clearDiag (setOwed false s) with f := ⟨f0, f1, f2⟩ }

/-- Channel 0 on PLL A (43_controller.md R187). -/
def channel0 (c0 : Bool) (f0 : Nat) (s : State) : Ran Unit :=
  if c0 then
    if f0 = 0 then .done () (disableChannel .ch0 s)
    else (programChannel .ch0 f0 false s).andThen fun _ s => .done () s
  else .done () s

/-- Channel 2 derived from the retained PLL-B frequency, or disabled (43_controller.md R192, R194,
R195). -/
def channel2FromPllb (f2 : Nat) (s : State) : Ran Bool :=
  if f2 = 0 then .done false (disableChannel .ch2 s)
  else (ch2Frac s.pllb.toNat f2 s).andThen fun _ s => .done false s

/-- Branch A: channel 1 enabled and changed (43_controller.md R192, R193). The result says whether the
early return was taken. -/
def branchA (f1 f2 : Nat) (s : State) : Ran Bool :=
  (programChannel .ch1 f1 false s).andThen fun res s =>
    match res with
    | none => .done true s
    | some pll => channel2FromPllb f2 { s with pllb := BitVec.ofNat 32 pll }

/-- Branch B: channel 1 enabled and unchanged (43_controller.md R195). -/
def branchB (f2 : Nat) (s : State) : Ran Bool := channel2FromPllb f2 s

/-- Branch C: channel 1 disabled, channel 2 enabled (43_controller.md R197, R198). -/
def branchC (f2 : Nat) (s : State) : Ran Bool :=
  (programChannel .ch2 f2 true (disableChannel .ch1 s)).andThen fun _ s => .done false s

/-- Branch D: both disabled (43_controller.md R199). -/
def branchD (s : State) : Ran Bool :=
  .done false (disableChannel .ch2 (disableChannel .ch1 s))

/-- The PLL-B group, processed only when channel 1 or channel 2 changed (43_controller.md R189-R191). -/
def pllBGroup (c1 c2 : Bool) (f1 f2 : Nat) (s : State) : Ran Bool :=
  if c1 || c2 then
    if f1 ≠ 0 then
      if c1 then branchA f1 f2 s else branchB f2 s
    else if f2 ≠ 0 then branchC f2 s
    else branchD s
  else .done false s

/-- The batched strobe at the end of SET_FREQ (43_controller.md R196, R200). -/
def batchedStrobe (early : Bool) (s : State) : State :=
  if s.owed && !(early && s.params.earlyReturnSkipsReset) then strobe s else s

/-- `SetFreq(f0, f1, f2)` (43_controller.md R185, R188). -/
def setFreq (f0 f1 f2 : BitVec 32) (s : State) : Ran Unit :=
  let c0 := changed .ch0 f0 s
  let c1 := changed .ch1 f1 s
  let c2 := changed .ch2 f2 s
  (channel0 c0 f0.toNat (latch f0 f1 f2 s)).andThen fun _ s =>
  (pllBGroup c1 c2 f1.toNat f2.toNat s).andThen fun early s =>
  .done () (batchedStrobe early s)

/-! ### The commands -/

/-- INIT (43_controller.md R180-R182). -/
def execInit (p0 p1 p2 : BitVec 2) (s : State) : Host.Outcome State Fault Refusal :=
  runCommand Opcode.init.byte (fun s => .done () (initBlock p0 p1 p2 s)) s

/-- SET_XTAL (43_controller.md R183, R184). -/
def execSetXtal (x : BitVec 32) (rst : Bool) (s : State) : Host.Outcome State Fault Refusal :=
  runCommand Opcode.setXtal.byte (setXtal x rst) s

/-- SET_FREQ (43_controller.md R185-R202). -/
def execSetFreq (f0 f1 f2 : BitVec 32) (s : State) : Host.Outcome State Fault Refusal :=
  runCommand Opcode.setFreq.byte (setFreq f0 f1 f2) s

end Sys2Proof.Machine
end

