-- ==== Sys2Proof/Machine/Dispatch.lean ====
section
/-! DEFINITION. One arm for each command. -/

namespace Sys2Proof.Machine

def exec (i : Instr) (s : State) : Host.Outcome State Fault Refusal :=
  match i with
  | .init p0 p1 p2 => Sys2Proof.Machine.execInit p0 p1 p2 s
  | .setXtal x rst => Sys2Proof.Machine.execSetXtal x rst s
  | .setFreq f0 f1 f2 => Sys2Proof.Machine.execSetFreq f0 f1 f2 s
  | .encPll sel a b c => Sys2Proof.Machine.execEncPll sel a b c s
  | .encMsInt sel d r => Sys2Proof.Machine.execEncMsInt sel d r s
  | .encMsFrac sel d b c r => Sys2Proof.Machine.execEncMsFrac sel d b c r s
  | .disable ch => Sys2Proof.Machine.execDisable ch s

end Sys2Proof.Machine
end

