-- ==== Sys2Proof/Machine/Step.lean ====
section
/-! DEFINITION. One step: the block takes the host's next input and carries it out whole (00_scope.md R9,
R12; 60_exceptions.md R235). -/

namespace Sys2Proof.Machine

/-- One step. With nothing on the port the block does nothing: "Every action is started by a command"
(60_exceptions.md R227; log entry 1). -/
def step (s : State) : Host.Outcome State Fault Refusal :=
  match takeInput s with
  | none => .next s
  | some (.reset, s') => .next (resetBlock s')
  | some (.command w, s') =>
    match decode w with
    | .instr i => exec i s'
    | .rejected _ => execIllegal w s'

/-- The state in which the host has put the word at the head of the port, so that the next step takes it. -/
def State.withFetchWord (s : State) (nbits w : Nat) : State :=
  { s with port := .command (BitVec.ofNat 128 (w % 2 ^ nbits)) :: s.port }

end Sys2Proof.Machine
end

