-- ==== Sys2Proof/WellFormed.lean ====
section
/-! DEFINITION. Two checks on commands: the source's operand domains (60_exceptions.md R221), and the
assembler's check that a number fits its field (30_encoding.md R96). -/

namespace Sys2Proof

/-- A multisynth divider of either encoder (41_codec.md R128, R130). -/
def msDivOk (even : Bool) (d : Nat) : Bool :=
  decide (Config.divMin ≤ d) && decide (d ≤ Config.divMax) && (!even || d % 2 == 0)

/-- A numerator and a denominator (41_codec.md R125, R130). -/
def fracOk (b c : Nat) : Bool :=
  decide (b ≤ Config.fracMax) && decide (1 ≤ c) && decide (c ≤ Config.fracMax)

/-- A requested frequency that no search refuses for every R (42_search.md R153): 0, or high enough that
R stays within 0..7. -/
def freqOk (f : Nat) : Bool := f == 0 || decide (7804 ≤ f)

/-- The operands lie in the source's documented domains (60_exceptions.md R221, R225). Such a command may
still meet an unset or extreme crystal (R155, R157). -/
def Instr.wellFormed : Instr → Bool
  | .init _ _ _ => true
  | .setXtal x _ => x != 0
  | .setFreq f0 f1 f2 => freqOk f0.toNat && freqOk f1.toNat && freqOk f2.toNat
  | .encPll sel a b c =>
      decide (sel.toNat ≤ 1) && decide (Config.multMin ≤ a.toNat) &&
        decide (a.toNat ≤ Config.multMax) && fracOk b.toNat c.toNat
  | .encMsInt sel d r =>
      decide (sel.toNat ≤ 2) && msDivOk true d.toNat && decide (r.toNat ≤ Config.rMax)
  | .encMsFrac sel d b c r =>
      decide (sel.toNat ≤ 2) && msDivOk false d.toNat && fracOk b.toNat c.toNat &&
        decide (r.toNat ≤ Config.rMax)
  | .disable ch => decide (ch.toNat ≤ 2)

/-- A command as the assembler reads it (30_encoding.md R96), its numbers not yet cut to fields, with the
two pseudo-commands of R97. -/
inductive SourceCmd where
  | init (p0 p1 p2 : Nat)
  | setXtal (x : Nat) (reset : Bool)
  | setFreq (f0 f1 f2 : Nat)
  | encPll (pll : Pll) (a b c : Nat)
  | encMsInt (ms d r : Nat)
  | encMsFrac (ms d b c r : Nat)
  | disable (ch : Nat)
  | allOff
  | setXtalReset (x : Nat)
deriving DecidableEq, Repr

/-- Every number fits its field: "An assembler refuses a number that does not fit its field, rather than
truncating it" (30_encoding.md R96, widths R91). -/
def SourceCmd.wellFormed : SourceCmd → Bool
  | .init p0 p1 p2 => decide (p0 < 2 ^ 2) && decide (p1 < 2 ^ 2) && decide (p2 < 2 ^ 2)
  | .setXtal x _ => decide (x < 2 ^ 32)
  | .setFreq f0 f1 f2 => decide (f0 < 2 ^ 32) && decide (f1 < 2 ^ 32) && decide (f2 < 2 ^ 32)
  | .encPll _ a b c => decide (a < 2 ^ 32) && decide (b < 2 ^ 32) && decide (c < 2 ^ 32)
  | .encMsInt ms d r => decide (ms < 2 ^ 8) && decide (d < 2 ^ 32) && decide (r < 2 ^ 8)
  | .encMsFrac ms d b c r =>
      decide (ms < 2 ^ 8) && decide (d < 2 ^ 32) && decide (b < 2 ^ 32) && decide (c < 2 ^ 32) &&
        decide (r < 2 ^ 8)
  | .disable ch => decide (ch < 2 ^ 8)
  | .allOff => true
  | .setXtalReset x => decide (x < 2 ^ 32)

end Sys2Proof
end

