-- ==== Sys2Proof/Machine/Assembler.lean ====
section
/-! DEFINITION. The assembler syntax and the pseudo-commands (30_encoding.md R96, R97). -/

namespace Sys2Proof.Assembler

/-- Cut a command to its fields: an encodable command, or nothing where a number does not fit its field
(30_encoding.md R96), with the pseudo-commands expanded (R97). -/
def assemble (c : SourceCmd) : Option Instr :=
  if c.wellFormed then
    some <| match c with
      | .init p0 p1 p2 => .init (.ofNat 2 p0) (.ofNat 2 p1) (.ofNat 2 p2)
      | .setXtal x rst => .setXtal (.ofNat 32 x) rst
      | .setFreq f0 f1 f2 => .setFreq (.ofNat 32 f0) (.ofNat 32 f1) (.ofNat 32 f2)
      | .encPll .pllA a b c => .encPll 0 (.ofNat 32 a) (.ofNat 32 b) (.ofNat 32 c)
      | .encPll .pllB a b c => .encPll 1 (.ofNat 32 a) (.ofNat 32 b) (.ofNat 32 c)
      | .encMsInt ms d r => .encMsInt (.ofNat 8 ms) (.ofNat 32 d) (.ofNat 8 r)
      | .encMsFrac ms d b c r =>
          .encMsFrac (.ofNat 8 ms) (.ofNat 32 d) (.ofNat 32 b) (.ofNat 32 c) (.ofNat 8 r)
      | .disable ch => .disable (.ofNat 8 ch)
      | .allOff => .setFreq 0 0 0
      | .setXtalReset x => .setXtal (.ofNat 32 x) true
  else none

/-- The value of a digit in base 10 or 16. -/
def digit? (base : Nat) (c : Char) : Option Nat :=
  let n := c.toNat
  let v :=
    if 48 ≤ n ∧ n ≤ 57 then n - 48
    else if 97 ≤ n ∧ n ≤ 102 then n - 87
    else if 65 ≤ n ∧ n ≤ 70 then n - 55
    else 16
  if v < base then some v else none

/-- Digits, with `_` allowed between two of them; `acc` is none before the first digit and after a `_`
(log entry 11). -/
def digits? (base acc : Nat) (afterDigit : Bool) (cs : List Char) : Option Nat :=
  match cs with
  | [] => if afterDigit then some acc else none
  | c :: rest =>
    if c = '_' then
      if afterDigit then digits? base acc false rest else none
    else
      match digit? base c with
      | some v => digits? base (acc * base + v) true rest
      | none => none

/-- A decimal or `0x` hexadecimal number (30_encoding.md R96). -/
def number? (cs : List Char) : Option Nat :=
  match cs with
  | '0' :: 'x' :: rest => digits? 16 0 false rest
  | _ => digits? 10 0 false cs

/-- `A` stands for SEL = 0 and `B` for SEL = 1 (30_encoding.md R96). -/
def pll? (cs : List Char) : Option Pll :=
  if cs = ['A'] then some .pllA else if cs = ['B'] then some .pllB else none

/-- A character that separates words. -/
def isBlank (c : Char) : Bool := c == ' ' || c == '\t' || c == '\r'

def trimLeft (cs : List Char) : List Char := cs.dropWhile isBlank

def trim (cs : List Char) : List Char := (trimLeft (trimLeft cs).reverse).reverse

/-- The text before a comment: `;` starts a comment (30_encoding.md R96). -/
def uncomment (cs : List Char) : List Char := cs.takeWhile (· != ';')

/-- The operands between commas, each trimmed. -/
def splitCommas (cur : List Char) (cs : List Char) : List (List Char) :=
  match cs with
  | [] => [trim cur.reverse]
  | c :: rest =>
    if c = ',' then trim cur.reverse :: splitCommas [] rest else splitCommas (c :: cur) rest

/-- Every operand read as a number. -/
def numbers? (ops : List (List Char)) : Option (List Nat) :=
  match ops with
  | [] => some []
  | o :: rest =>
    match number? o, numbers? rest with
    | some n, some ns => some (n :: ns)
    | _, _ => none

/-- One command of the syntax of 30_encoding.md R96, R97: its name and its operands. -/
def command? (name : List Char) (ops : List (List Char)) : Option SourceCmd :=
  if name = "INIT".toList then
    match numbers? ops with
    | some [p0, p1, p2] => some (.init p0 p1 p2)
    | _ => none
  else if name = "SET_XTAL".toList then
    match ops with
    | [x] => (number? x).map (.setXtal · false)
    | [x, r] => if r = "RESET".toList then (number? x).map (.setXtal · true) else none
    | _ => none
  else if name = "SET_FREQ".toList then
    match numbers? ops with
    | some [f0, f1, f2] => some (.setFreq f0 f1 f2)
    | _ => none
  else if name = "ENC_PLL".toList then
    match ops with
    | p :: rest =>
      match pll? p, numbers? rest with
      | some p, some [a, b, c] => some (.encPll p a b c)
      | _, _ => none
    | _ => none
  else if name = "ENC_MS_INT".toList then
    match numbers? ops with
    | some [ms, d, r] => some (.encMsInt ms d r)
    | _ => none
  else if name = "ENC_MS_FRAC".toList then
    match numbers? ops with
    | some [ms, d, b, c, r] => some (.encMsFrac ms d b c r)
    | _ => none
  else if name = "DISABLE".toList then
    match numbers? ops with
    | some [ch] => some (.disable ch)
    | _ => none
  else if name = "ALL_OFF".toList then
    if ops = [[]] then some .allOff else none
  else if name = "SET_XTAL_RESET".toList then
    match numbers? ops with
    | some [x] => some (.setXtalReset x)
    | _ => none
  else none

/-- What one line of text holds. -/
inductive Line where
  /-- Nothing, or a comment only. -/
  | empty
  | command (i : Instr)
  /-- No command of the syntax, or a number that does not fit its field. -/
  | refused
deriving DecidableEq, Repr

/-- One line of an assembler text: "one command per line" (30_encoding.md R96). -/
def assembleLine (text : List Char) : Line :=
  let cs := trim (uncomment text)
  if cs = [] then .empty
  else
    let name := cs.takeWhile (!isBlank ·)
    match (command? name (splitCommas [] (cs.dropWhile (!isBlank ·)))).bind assemble with
    | some i => .command i
    | none => .refused

end Sys2Proof.Assembler
end

