-- ==== Sys2Proof/Machine/Bus.lean ====
section
/-! DEFINITION. Two views of the transaction log: the transport calls it stands for (20_memory.md R62), and
the register image (R61, R63). Neither is state of the block. -/

namespace Sys2Proof.Machine

/-! ### The transport -/

/-- The transport's primitives (20_memory.md R62). -/
inductive BusOp where
  | beginWrite (dev : BitVec 7)
  | write (b : Byte)
  | finish
deriving DecidableEq, Repr

/-- The transport calls of one transaction: it goes to DEV_ADDR of the register map, and the register
address is the first byte written (20_memory.md R62, R66). -/
def Transaction.busOps (m : RegMap) : Transaction → List BusOp
  | .single reg v => [.beginWrite m.devAddr, .write reg, .write v, .finish]
  | .burst reg vs => .beginWrite m.devAddr :: .write reg :: (vs.map .write ++ [.finish])

/-- The transport calls of a log: transactions in emission order, none interleaved (20_memory.md R64,
R76). -/
def busTrace (m : RegMap) (log : List Transaction) : List BusOp :=
  log.flatMap (Transaction.busOps m)

/-- The transport calls the machine has made: those of its log, each transaction to the machine's own
DEV_ADDR (20_memory.md R62, R66). -/
def State.busCalls (s : State) : List BusOp := busTrace s.params.regMap s.log

/-! ### The register image -/

/-- The chip's registers as far as the block has written them, as cells at strictly rising addresses. An
address without a cell is "unknown" (20_memory.md R61). -/
abbrev Image := List Host.Cell

namespace Image

/-- The value at an address, or "unknown". -/
def read (m : Image) (a : Nat) : Option Byte :=
  match m with
  | [] => none
  | c :: rest => if c.1 = a then some c.2 else read rest a

/-- `image[a] = v`. -/
def write (m : Image) (a : Nat) (v : Byte) : Image :=
  match m with
  | [] => [(a, v)]
  | c :: rest =>
    if a < c.1 then (a, v) :: c :: rest
    else if a = c.1 then (a, v) :: rest
    else c :: write rest a v

/-- The canonical form: addresses strictly rising, each in the 8-bit register space. -/
abbrev wf (m : Image) : Prop := m.Pairwise (fun x y => x.1 < y.1) ∧ ∀ c ∈ m, c.1 < 256

/-- `image[reg+i] = vi`, in increasing i. The register address has 8 bits; no burst of the defaults passes
register 255 (20_memory.md R60, R63; log entry 3). -/
def writeAll (m : Image) (reg : Byte) (vs : List Byte) : Image :=
  match vs with
  | [] => m
  | v :: rest => writeAll (m.write reg.toNat v) (reg + 1) rest

/-- The effect of one transaction (20_memory.md R63). -/
def apply (m : Image) (t : Transaction) : Image :=
  match t with
  | .single reg v => m.write reg.toNat v
  | .burst reg vs => m.writeAll reg vs

end Image

/-- The register image after a log, unknown everywhere before it (20_memory.md R61). -/
def imageOf (log : List Transaction) : Image := log.foldl Image.apply []

/-- The value the image holds at a register. -/
def State.readReg (s : State) (a : Nat) : Option Byte := (imageOf s.log).read a

/-- The bytes the image holds at a parameter block. -/
def State.readBlock (s : State) (reg : Byte) : List (Option Byte) :=
  (List.range 8).map fun i => s.readReg (reg + BitVec.ofNat 8 i).toNat

/-- A channel's place in the state machine of 43_controller.md R203: enabled when its last control write
was an enable byte, disabled when it was 0x80, none before any. -/
def State.channelEnabled (s : State) (k : Channel) : Option Bool :=
  (s.readReg (ctrlReg k s).toNat).map fun b => b != Config.ctrlPdn

end Sys2Proof.Machine
end

