-- ==== Sys2Proof/Safety.lean ====
section
/-! DEFINITION. What counts as a safe run, and the invariants the claims use. -/

namespace Sys2Proof.Machine

/-- "A run that ends with FLT.V = 1 is a faulted run", never a successful one (60_exceptions.md R224). -/
def Healthy (s : State) : Prop := s.flt.v = false

/-- A legal DIV[k]: 0, or an even value in 6..900 (10_state.md R21 table, R35 a). -/
def DivLegal (d : BitVec 10) : Prop := d = 0 ∨ (6 ≤ d.toNat ∧ d.toNat ≤ 900 ∧ d.toNat % 2 = 0)

/-- A legal PLLB (10_state.md R21 table, R30). -/
def PllbLegal (p : BitVec 32) : Prop := p = 0 ∨ (675000006 ≤ p.toNat ∧ p.toNat ≤ 900000000)

/-- The legal values of the fields whose type admits more (10_state.md R21 table). -/
def ValuesLegal (s : State) : Prop := (∀ k, DivLegal (s.div.get k)) ∧ PllbLegal s.pllb

/-- Who raises a cause, by the byte FLT.OP then holds (60_exceptions.md R221). -/
def raisedBy (c : Cause) (op : Byte) : Prop :=
  match c with
  | .illegalCommand => True
  | .badSelector => op = 0x10 ∨ op = 0x11 ∨ op = 0x12 ∨ op = 0x13
  | .xtalZero => op = 0x02
  | .xtalUnset => op = 0x03
  | .pllMultRange => op = 0x10 ∨ op = 0x03
  | .fracNumRange => op = 0x10 ∨ op = 0x12
  | .fracDenRange => op = 0x10 ∨ op = 0x12
  | .msDivRange => op = 0x11 ∨ op = 0x12
  | .rDivRange => op = 0x11 ∨ op = 0x12 ∨ op = 0x03

/-- FLT holds NONE, or a cause and one of the commands that raise it (60_exceptions.md R221). -/
def FaultLegal (f : FaultReg) : Prop :=
  f = ⟨false, 0, 0⟩ ∨ ∃ c, f.v = true ∧ f.code = c.code ∧ raisedBy c f.op

/-- The forms in which the block writes the registers of 20_memory.md R66: the control bytes of R70 and
R71, the strobe of R72, the PLL blocks as bursts of 8, the multisynth blocks as bursts of 8 or as
singles. -/
def TransactionLegal (m : RegMap) (t : Transaction) : Prop :=
  (∃ k, t = .single (m.ctrl.get k) 0x80) ∨
  (∃ k p, p < 4 ∧ t = .single (m.ctrl.get k) (BitVec.ofNat 8 (p + if k = .ch0 then 0x4C else 0x6C))) ∨
  t = .single m.pllReset 0xA0 ∨
  (∃ p vs, vs.length = 8 ∧ t = .burst (m.pllBase.get p) vs) ∨
  (∃ k vs, vs.length = 8 ∧ t = .burst (m.msBase.get k) vs) ∨
  (∃ k i v, i < 8 ∧ t = .single (m.msBase.get k + BitVec.ofNat 8 i) v)

/-- Every transaction of the log is in one of those forms. -/
def LogLegal (s : State) : Prop := ∀ t ∈ s.log, TransactionLegal s.params.regMap t

/-- A nonzero DIV[k] says what the chip holds: the last writes to MS k's parameter block and to CTRL[k]
were the integer-mode block for (DIV[k], RSH[k]) and the enable byte (10_state.md R35 c). -/
def CacheTruthful (s : State) : Prop :=
  ∀ k, s.div.get k ≠ 0 →
    s.readBlock (msBase k s) =
      (pBlock (pWords (s.div.get k).toNat 0 1) (rCode (s.rsh.get k).toNat s)).map some ∧
    s.readReg (ctrlReg k s).toNat = some (enableByte k s)

end Sys2Proof.Machine
end

