-- ==== Sys2Proof/Certificates/Slice0/Obligations.lean ====
section
/-! DEFINITION. The statements for the provers. Register numbers, R_POS and the early-return parameter are
the fields of `params`, so each statement holds whatever they are, but for what a hypothesis says. -/

open Sys2Proof Sys2Proof.Machine

/-! ### Vocabulary: the spec's formulas, written from the rules -/

namespace Sys2Proof.Claims

/-- The 8 bytes of a parameter block, byte by byte as the table of 41_codec.md R121 lists them. -/
def blockBytes (p1 p2 p3 : Nat) (rcode : Byte) : List Byte :=
  [BitVec.ofNat 8 (p3 / 256), BitVec.ofNat 8 p3,
   BitVec.ofNat 8 (p1 / 65536 % 4) ||| rcode, BitVec.ofNat 8 (p1 / 256), BitVec.ofNat 8 p1,
   BitVec.ofNat 8 (p3 / 65536 % 16 * 16 + p2 / 65536 % 16),
   BitVec.ofNat 8 (p2 / 256), BitVec.ofNat 8 p2]

/-- The block of (a, b, c), with the P-words of 41_codec.md R120. -/
def fracBytes (a b c : Nat) (rcode : Byte) : List Byte :=
  blockBytes (128 * a + 128 * b / c - 512) (128 * b % c) c rcode

/-- `rcode = r << R_POS`. -/
def rcode (r : Nat) (s : State) : Byte := BitVec.ofNat 8 (r * 2 ^ s.params.rPos)

/-- Eight singles, to registers base..base+7 in increasing order (41_codec.md R130). -/
def eightSingles (base : Byte) (vs : List Byte) : List Transaction :=
  (List.range 8).zipWith (fun i v => .single (base + BitVec.ofNat 8 i) v) vs

/-- The state after a fault: FLT is written and nothing else (60_exceptions.md R222). -/
def faulted (code op : Byte) (s : State) : State := { s with flt := ⟨true, code, op⟩ }

/-- r is the least shift that brings q down to 900 (42_search.md R152). -/
def MinShift (q r : Nat) : Prop := q / 2 ^ r ≤ 900 ∧ ∀ j < r, 900 < q / 2 ^ j

/-- The divider, R-shift and PLL_freq the search must yield for f (42_search.md R152, R154). -/
def SearchYields (f d r pll : Nat) : Prop :=
  MinShift (900000000 / f) r ∧ d = 900000000 / f / 2 ^ r / 2 * 2 ∧ pll = d * f * 2 ^ r

/-- The transactions of a channel that is programmed: the PLL block always, the multisynth block and the
enable byte when the cache gate misses, and an immediate strobe where there is one (42_search.md R156,
R157; 70_reset_and_hazards.md R256). -/
def programWrites (k : Channel) (d r mult num : Nat) (miss immediate : Bool) (s : State) :
    List Transaction :=
  [.burst (pllBase k.pll s) (fracBytes mult num 0xFFFFF 0)] ++
  (if miss then
    [.burst (msBase k s) (fracBytes d 0 1 (rcode r s)), .single (ctrlReg k s) (enableByte k s)] ++
    (if immediate then [.single s.params.regMap.pllReset 0xA0] else [])
  else [])

/-- The state after a channel has been programmed (42_search.md R156, R157). -/
def programmed (k : Channel) (d r mult num : Nat) (miss immediate : Bool) (s : State) : State :=
  { s with
    log := s.log ++ programWrites k d r mult num miss immediate s
    div := if miss then s.div.set k (BitVec.ofNat 10 d) else s.div
    rsh := if miss then s.rsh.set k (BitVec.ofNat 3 r) else s.rsh
    owed := if miss && !immediate then true else s.owed }

/-- The cache gate misses: the divider or the R-shift differs from the cached one (42_search.md R156). -/
def gateMisses (k : Channel) (d r : Nat) (s : State) : Bool :=
  decide ((s.div.get k).toNat ≠ d) || decide ((s.rsh.get k).toNat ≠ r)

/-- The state after a disable: one write of 0x80, and the cached divider cleared (41_codec.md R133). -/
def disabled (k : Channel) (s : State) : State :=
  { s with log := s.log ++ [.single (ctrlReg k s) 0x80], div := s.div.set k 0 }

/-- The state SET_FREQ processes the channels from: OWED and diag cleared, the three frequencies latched
and valid (43_controller.md R185, R186). -/
def latched (f0 f1 f2 : BitVec 32) (s : State) : State :=
  { s with owed := false, diag := 0, f := ⟨f0, f1, f2⟩, fv := ⟨true, true, true⟩ }

/-- The state after the batched strobe, if one is due (43_controller.md R200). -/
def finished (early : Bool) (s : State) : State :=
  { s with log := s.log ++
      (if s.owed && !(early && s.params.earlyReturnSkipsReset)
       then [.single s.params.regMap.pllReset 0xA0] else []) }

/-- Channel k is unchanged by a SET_FREQ that requests f (43_controller.md R186). -/
def Unchanged (k : Channel) (f : BitVec 32) (s : State) : Prop :=
  s.fv.get k = true ∧ s.f.get k = f

/-- The three commands that run the controller, not the codec alone (10_state.md R35). -/
def IsController : Instr → Prop
  | .init _ _ _ | .setXtal _ _ | .setFreq _ _ _ => True
  | _ => False

/-- The three codec commands that are pure (41_codec.md R135). -/
def IsPureCodec : Instr → Prop
  | .encPll _ _ _ _ | .encMsInt _ _ _ | .encMsFrac _ _ _ _ _ => True
  | _ => False

/-- The transport calls of a transaction to a device (20_memory.md R62). -/
def transportCalls (dev : BitVec 7) : Transaction → List BusOp
  | .single reg v => [.beginWrite dev, .write reg, .write v, .finish]
  | .burst reg vs => [.beginWrite dev, .write reg] ++ vs.map .write ++ [.finish]

/-- The register numbers of channel 0: its control byte, PLL A, multisynth 0. -/
def IsChannel0Reg (m : RegMap) (a : Nat) : Prop :=
  a = m.ctrl.ch0.toNat ∨ (m.pllBase.pllA.toNat ≤ a ∧ a < m.pllBase.pllA.toNat + 8) ∨
    (m.msBase.ch0.toNat ≤ a ∧ a < m.msBase.ch0.toNat + 8)

/-- The register numbers of channels 1 and 2: their control bytes, PLL B, multisynths 1 and 2. -/
def IsGroupReg (m : RegMap) (a : Nat) : Prop :=
  a = m.ctrl.ch1.toNat ∨ a = m.ctrl.ch2.toNat ∨
    (m.pllBase.pllB.toNat ≤ a ∧ a < m.pllBase.pllB.toNat + 8) ∨
    (m.msBase.ch1.toNat ≤ a ∧ a < m.msBase.ch1.toNat + 8) ∨
    (m.msBase.ch2.toNat ≤ a ∧ a < m.msBase.ch2.toNat + 8)

end Sys2Proof.Claims

open Sys2Proof.Claims

/-! ### Encoding (30_encoding.md) -/

/-- Every command, with every operand at every value its field admits, decodes from its own word
(R90, R91). -/
def Obligations.DecodeEncodeGivesTheCommandBack : Prop :=
  ∀ i : Instr, decode (encode i) = .instr i

/-- A word that decodes is the word of its command: no bit of it is ignored (R90, R91, R93). -/
def Obligations.EncodeDecodeGivesTheWordBack : Prop :=
  ∀ (w : CmdWord) (i : Instr), decode w = .instr i → encode i = w

/-- R93: "A word W decodes to command X exactly when `(W & mask_X) == match_X`", with the table's own
words, and no two rows match one word. -/
def Obligations.DecodeFollowsTheMaskTable : Prop :=
  let table : List (Opcode × CmdWord × CmdWord) :=
    [(.init, 0x01000000000000000000000000000000, 0xFFFFFFFFFFFFFFFFFFFFFFFFFFFFFFC0),
     (.setXtal, 0x02000000000000000000000000000000, 0xFFFFFFFFFFFFFFFFFFFFFFFE00000000),
     (.setFreq, 0x03000000000000000000000000000000, 0xFFFFFFFF000000000000000000000000),
     (.encPll, 0x10000000000000000000000000000000, 0xFFFFFF00000000000000000000000000),
     (.encMsInt, 0x11000000000000000000000000000000, 0xFFFFFFFFFFFFFFFFFFFF000000000000),
     (.encMsFrac, 0x12000000000000000000000000000000, 0xFFFF0000000000000000000000000000),
     (.disable, 0x13000000000000000000000000000000, 0xFFFFFFFFFFFFFFFFFFFFFFFFFFFFFF00)]
  (∀ row ∈ table, ∀ w : CmdWord,
    (∃ i, decode w = .instr i ∧ i.opcode = row.1) ↔ w &&& row.2.2 = row.2.1) ∧
  (∀ row ∈ table, ∀ row' ∈ table, ∀ w : CmdWord,
    w &&& row.2.2 = row.2.1 → w &&& row'.2.2 = row'.2.1 → row = row')

/-- Example words of 30_encoding.md §5 and 95_test_vectors.md §2.8. -/
def Obligations.ExampleWordsDecode : Prop :=
  decode 0x01000000000000000000000000000024 = .instr (.init 0 1 2) ∧
  decode 0x0200000000000000000000010EE6B280 = .instr (.setXtal 250000000 true) ∧
  decode 0x03000000006ACFC000D59F8000000000 = .instr (.setFreq 0 14000000 7000000) ∧
  decode 0x100000000FFFFF000000000000002001 = .instr (.encPll 1 32 0 1048575) ∧
  decode 0x11000000000000000000000000000800 = .instr (.encMsInt 0 8 0) ∧
  decode 0x12000300000007000000050000006402 = .instr (.encMsFrac 2 100 5 7 3) ∧
  decode 0x13000000000000000000000000000001 = .instr (.disable 1) ∧
  decode 0x0200000000000000000000020EE6B280 = .rejected .reservedBits ∧
  decode 0x04000000000000000000000000000000 = .rejected .unknownOpcode

/-- R93, R94: a word whose opcode is not one of the seven, or that has a reserved bit set, faults with
ILLEGAL_COMMAND and FLT.OP = W[127:120], and has no other effect. -/
def Obligations.IllegalWordFaults : Prop :=
  ∀ (s : State) (w : CmdWord) (rest : List HostInput),
    s.flt.v = false → s.port = .command w :: rest →
    (∀ op : Opcode, w &&& op.mask ≠ op.matchWord) →
    step s = .next
      { s with port := rest, pc := s.pc + 1, flt := ⟨true, 1, BitVec.ofNat 8 (w.toNat / 2 ^ 120)⟩ }

/-- R91, R96, R97: for each of the seven commands and for the pseudo-command with an operand, numbers that
fit their fields reach the command unchanged, and a number that does not fit is refused and not truncated;
the two PLL letters stand for SEL = 0 and SEL = 1, and the pseudo-commands expand as the table says. -/
def Obligations.AssemblerRefusesOversizedNumbers : Prop :=
  (∀ p0 p1 p2 : Nat,
    ((2 ^ 2 ≤ p0 ∨ 2 ^ 2 ≤ p1 ∨ 2 ^ 2 ≤ p2) ∧ Assembler.assemble (.init p0 p1 p2) = none) ∨
    (∃ q0 q1 q2 : BitVec 2, q0.toNat = p0 ∧ q1.toNat = p1 ∧ q2.toNat = p2 ∧
      Assembler.assemble (.init p0 p1 p2) = some (.init q0 q1 q2))) ∧
  (∀ (x : Nat) (rst : Bool),
    (2 ^ 32 ≤ x ∧ Assembler.assemble (.setXtal x rst) = none) ∨
    (∃ y : BitVec 32, y.toNat = x ∧ Assembler.assemble (.setXtal x rst) = some (.setXtal y rst))) ∧
  (∀ f0 f1 f2 : Nat,
    ((2 ^ 32 ≤ f0 ∨ 2 ^ 32 ≤ f1 ∨ 2 ^ 32 ≤ f2) ∧
      Assembler.assemble (.setFreq f0 f1 f2) = none) ∨
    (∃ g0 g1 g2 : BitVec 32, g0.toNat = f0 ∧ g1.toNat = f1 ∧ g2.toNat = f2 ∧
      Assembler.assemble (.setFreq f0 f1 f2) = some (.setFreq g0 g1 g2))) ∧
  (∀ (p : Pll) (sel : BitVec 8) (a b c : Nat), (p = .pllA ∧ sel = 0) ∨ (p = .pllB ∧ sel = 1) →
    ((2 ^ 32 ≤ a ∨ 2 ^ 32 ≤ b ∨ 2 ^ 32 ≤ c) ∧ Assembler.assemble (.encPll p a b c) = none) ∨
    (∃ a' b' c' : BitVec 32, a'.toNat = a ∧ b'.toNat = b ∧ c'.toNat = c ∧
      Assembler.assemble (.encPll p a b c) = some (.encPll sel a' b' c'))) ∧
  (∀ ms d r : Nat,
    ((2 ^ 8 ≤ ms ∨ 2 ^ 32 ≤ d ∨ 2 ^ 8 ≤ r) ∧ Assembler.assemble (.encMsInt ms d r) = none) ∨
    (∃ (ms' r' : BitVec 8) (d' : BitVec 32), ms'.toNat = ms ∧ d'.toNat = d ∧ r'.toNat = r ∧
      Assembler.assemble (.encMsInt ms d r) = some (.encMsInt ms' d' r'))) ∧
  (∀ ms d b c r : Nat,
    ((2 ^ 8 ≤ ms ∨ 2 ^ 32 ≤ d ∨ 2 ^ 32 ≤ b ∨ 2 ^ 32 ≤ c ∨ 2 ^ 8 ≤ r) ∧
      Assembler.assemble (.encMsFrac ms d b c r) = none) ∨
    (∃ (ms' r' : BitVec 8) (d' b' c' : BitVec 32), ms'.toNat = ms ∧ d'.toNat = d ∧ b'.toNat = b ∧
      c'.toNat = c ∧ r'.toNat = r ∧
      Assembler.assemble (.encMsFrac ms d b c r) = some (.encMsFrac ms' d' b' c' r'))) ∧
  (∀ ch : Nat,
    (2 ^ 8 ≤ ch ∧ Assembler.assemble (.disable ch) = none) ∨
    (∃ ch' : BitVec 8, ch'.toNat = ch ∧ Assembler.assemble (.disable ch) = some (.disable ch'))) ∧
  Assembler.assemble .allOff = Assembler.assemble (.setFreq 0 0 0) ∧
  (∀ x : Nat, Assembler.assemble (.setXtalReset x) = Assembler.assemble (.setXtal x true))

/-! ### The Register Codec (41_codec.md) -/

/-- R123: integer mode, b = 0 and c = 1. -/
def Obligations.IntegerModeBlock : Prop :=
  ∀ d rcode : Nat,
    pWords d 0 1 = ⟨128 * d - 512, 0, 1⟩ ∧
    pBlock (pWords d 0 1) rcode =
      [0x00, 0x01, BitVec.ofNat 8 ((128 * d - 512) / 65536 % 4) ||| BitVec.ofNat 8 rcode,
       BitVec.ofNat 8 ((128 * d - 512) / 256), BitVec.ofNat 8 (128 * d - 512), 0x00, 0x00, 0x00]

/-- R124: reading a parameter block back recovers (a, b, c, r) for b < c; for b >= c the inputs (a, b) and
(a+1, b-c) give identical bytes. R_POS leaves the code clear of P1 (log entry 3). -/
def Obligations.ParameterBlockRoundTrips : Prop :=
  (∀ a b c r rPos : Nat, 6 ≤ a → a ≤ 900 → b < c → c ≤ 0xFFFFF → r ≤ 7 → 2 ≤ rPos → rPos ≤ 5 →
    decodeBlock rPos (pBlock (pWords a b c) (r <<< rPos)) = some ⟨a, b, c, r⟩) ∧
  (∀ a b c rcode : Nat, 6 ≤ a → 1 ≤ c → c ≤ b →
    pBlock (pWords a b c) rcode = pBlock (pWords (a + 1) (b - c) c) rcode)

/-- R125: ENC_PLL, every check in its order, and the burst. -/
def Obligations.EncPllCommand : Prop :=
  ∀ (sel : BitVec 8) (a b c : BitVec 32) (s : State),
    opcodeOf (encode (.encPll sel a b c)) = 0x10 ∧
    (s.flt.v = false →
      (1 < sel.toNat → exec (.encPll sel a b c) s = .next (faulted 2 0x10 s)) ∧
      (∀ p : Pll, (sel = 0 ∧ p = .pllA) ∨ (sel = 1 ∧ p = .pllB) →
        (a.toNat < 15 ∨ 90 < a.toNat → exec (.encPll sel a b c) s = .next (faulted 5 0x10 s)) ∧
        (15 ≤ a.toNat ∧ a.toNat ≤ 90 →
          (0xFFFFF < b.toNat → exec (.encPll sel a b c) s = .next (faulted 6 0x10 s)) ∧
          (b.toNat ≤ 0xFFFFF →
            (c.toNat < 1 ∨ 0xFFFFF < c.toNat →
              exec (.encPll sel a b c) s = .next (faulted 7 0x10 s)) ∧
            (1 ≤ c.toNat ∧ c.toNat ≤ 0xFFFFF →
              exec (.encPll sel a b c) s = .next
                { s with log := s.log ++
                    [.burst (pllBase p s) (fracBytes a.toNat b.toNat c.toNat 0)] })))))

/-- R128: ENC_MS_INT, every check in its order, and the burst. -/
def Obligations.EncMsIntCommand : Prop :=
  ∀ (sel : BitVec 8) (d : BitVec 32) (r : BitVec 8) (s : State),
    opcodeOf (encode (.encMsInt sel d r)) = 0x11 ∧
    (s.flt.v = false →
      (2 < sel.toNat → exec (.encMsInt sel d r) s = .next (faulted 2 0x11 s)) ∧
      (∀ k : Channel, sel.toNat = k.index →
        (d.toNat < 6 ∨ 900 < d.toNat ∨ d.toNat % 2 ≠ 0 →
          exec (.encMsInt sel d r) s = .next (faulted 8 0x11 s)) ∧
        (6 ≤ d.toNat ∧ d.toNat ≤ 900 ∧ d.toNat % 2 = 0 →
          (7 < r.toNat → exec (.encMsInt sel d r) s = .next (faulted 9 0x11 s)) ∧
          (r.toNat ≤ 7 →
            exec (.encMsInt sel d r) s = .next
              { s with log := s.log ++
                  [.burst (msBase k s) (fracBytes d.toNat 0 1 (rcode r.toNat s))] }))))

/-- R130: ENC_MS_FRAC, every check in its order, and the eight singles. -/
def Obligations.EncMsFracCommand : Prop :=
  ∀ (sel : BitVec 8) (d b c : BitVec 32) (r : BitVec 8) (s : State),
    opcodeOf (encode (.encMsFrac sel d b c r)) = 0x12 ∧
    (s.flt.v = false →
      (2 < sel.toNat → exec (.encMsFrac sel d b c r) s = .next (faulted 2 0x12 s)) ∧
      (∀ k : Channel, sel.toNat = k.index →
        (d.toNat < 6 ∨ 900 < d.toNat →
          exec (.encMsFrac sel d b c r) s = .next (faulted 8 0x12 s)) ∧
        (6 ≤ d.toNat ∧ d.toNat ≤ 900 →
          (0xFFFFF < b.toNat → exec (.encMsFrac sel d b c r) s = .next (faulted 6 0x12 s)) ∧
          (b.toNat ≤ 0xFFFFF →
            (c.toNat < 1 ∨ 0xFFFFF < c.toNat →
              exec (.encMsFrac sel d b c r) s = .next (faulted 7 0x12 s)) ∧
            (1 ≤ c.toNat ∧ c.toNat ≤ 0xFFFFF →
              (7 < r.toNat → exec (.encMsFrac sel d b c r) s = .next (faulted 9 0x12 s)) ∧
              (r.toNat ≤ 7 →
                exec (.encMsFrac sel d b c r) s = .next
                  { s with
                    log := s.log ++ eightSingles (msBase k s)
                      (fracBytes d.toNat b.toNat c.toNat (rcode r.toNat s)) }))))))

/-- R133: DISABLE. -/
def Obligations.DisableCommand : Prop :=
  ∀ (ch : BitVec 8) (s : State),
    opcodeOf (encode (.disable ch)) = 0x13 ∧
    (s.flt.v = false →
      (2 < ch.toNat → exec (.disable ch) s = .next (faulted 2 0x13 s)) ∧
      (∀ k : Channel, ch.toNat = k.index →
        exec (.disable ch) s = .next
          { s with log := s.log ++ [.single (s.params.regMap.ctrl.get k) 0x80],
                   div := s.div.set k 0 }))

/-- R131: with b = 0 and c = 1, ENC_MS_FRAC leaves the same register image as ENC_MS_INT, by eight
transactions instead of one. -/
def Obligations.FracWithUnitDenominatorWritesTheIntegerBlock : Prop :=
  ∀ (sel r : BitVec 8) (d : BitVec 32) (s : State),
    s.flt.v = false → sel.toNat ≤ 2 → 6 ≤ d.toNat → d.toNat ≤ 900 → d.toNat % 2 = 0 → r.toNat ≤ 7 →
    ∃ t u : State,
      exec (.encMsInt sel d r) s = .next t ∧ exec (.encMsFrac sel d 0 1 r) s = .next u ∧
      imageOf u.log = imageOf t.log ∧
      t.log.length = s.log.length + 1 ∧ u.log.length = s.log.length + 8 ∧
      t = { u with log := t.log }

/-- R135: ENC_PLL, ENC_MS_INT and ENC_MS_FRAC read no state: what one emits, and the fault it raises, is
the same in any two states with the same parameters, and it writes nothing but FLT on a fault. -/
def Obligations.PureCodecCommandsReadNoState : Prop :=
  ∀ (i : Instr) (p : Params), IsPureCodec i →
    ∃ (ts : List Transaction) (fl : Option FaultReg),
      ∀ s : State, s.params = p → s.flt.v = false →
        exec i s = .next { s with log := s.log ++ ts, flt := fl.getD s.flt }

/-- R255: the codec commands emit no PLL-reset strobe and do not touch OWED. -/
def Obligations.CodecCommandsNeverStrobe : Prop :=
  ∀ (i : Instr) (s t : State), ¬ IsController i → s.params.wf = true → exec i s = .next t →
    t.owed = s.owed ∧
    ∃ ts, t.log = s.log ++ ts ∧ ∀ x ∈ ts, ∀ v, x ≠ .single s.params.regMap.pllReset v

/-! ### The register-write output (20_memory.md) -/

/-- R70: the enable byte. -/
def Obligations.EnableByteOfEachChannel : Prop :=
  ∀ s : State,
    enableByte .ch0 s = 0x4C ||| (s.pwr.get .ch0).setWidth 8 ||| 0x00 ∧
    enableByte .ch1 s = 0x4C ||| (s.pwr.get .ch1).setWidth 8 ||| 0x20 ∧
    enableByte .ch2 s = 0x4C ||| (s.pwr.get .ch2).setWidth 8 ||| 0x20 ∧
    (enableByte .ch0 s).toNat = 0x4C + (s.pwr.get .ch0).toNat ∧
    (enableByte .ch1 s).toNat = 0x6C + (s.pwr.get .ch1).toNat ∧
    (enableByte .ch2 s).toNat = 0x6C + (s.pwr.get .ch2).toNat

/-- R62, R66: the transport calls of the two kinds of transaction, each to DEV_ADDR of the register map. -/
def Obligations.TransportCallsOfATransaction : Prop :=
  ∀ (m : RegMap) (reg v v0 v1 v2 v3 v4 v5 v6 v7 : Byte),
    (Transaction.single reg v).busOps m =
      [.beginWrite m.devAddr, .write reg, .write v, .finish] ∧
    (Transaction.burst reg [v0, v1, v2, v3, v4, v5, v6, v7]).busOps m =
      [.beginWrite m.devAddr, .write reg, .write v0, .write v1, .write v2, .write v3, .write v4,
       .write v5, .write v6, .write v7, .finish]

/-- R63: what a transaction does to the register image, and what it leaves: a single sets its register, a
burst of 8 sets reg..reg+7, every other register reads as before. -/
def Obligations.RegisterImageAfterATransaction : Prop :=
  ∀ (log : List Transaction) (reg v : Byte) (vs : List Byte) (a : Nat),
    ((imageOf (log ++ [.single reg v])).read a =
      if a = reg.toNat then some v else (imageOf log).read a) ∧
    (vs.length = 8 → reg.toNat + 8 ≤ 256 →
      (imageOf (log ++ [.burst reg vs])).read a =
        if reg.toNat ≤ a ∧ a < reg.toNat + 8 then vs[a - reg.toNat]? else (imageOf log).read a)

/-- R63: "A burst and eight singles that write the same bytes to the same registers leave the same
image." -/
def Obligations.BurstAndEightSinglesLeaveTheSameImage : Prop :=
  ∀ (log : List Transaction) (reg : Byte) (vs : List Byte), vs.length = 8 →
    imageOf (log ++ [.burst reg vs]) = imageOf (log ++ eightSingles reg vs)

/-- The image keeps its canonical form: addresses strictly rising, each in the 8-bit register space of
R60. The form is the model's own choice (log entry 10). -/
def Obligations.ImageStaysCanonical : Prop :=
  ∀ log : List Transaction, Image.wf (imageOf log)

/-- R65, R76: a step appends to the transaction log and does nothing else to it. That the old log also stays
at the reset input is the model's choice (log entry 9); the spec says of reset that it emits nothing. -/
def Obligations.StepOnlyAppendsToTheLog : Prop :=
  ∀ s t : State, step s = .next t → ∃ ts, t.log = s.log ++ ts

/-- R67 and the forms of R62, R66, R70-R72: every step keeps each transaction of the log to the registers
of the map, in a form the rules give, each burst of exactly 8 bytes. -/
def Obligations.StepWritesOnlyMappedRegisters : Prop :=
  ∀ s t : State, LogLegal s → step s = .next t → LogLegal t

/-! ### The divider search and the PLL parameters (42_search.md) -/

/-- R151-R154: the search underflows exactly from 150_000_001 Hz up, exceeds R = 7 exactly from 7_803 Hz
down, and otherwise yields the least shift, the evened divider and the exact product. -/
def Obligations.SearchOutcome : Prop :=
  ∀ f : Nat, 1 ≤ f →
    (search f = .underflow ↔ 150000001 ≤ f) ∧
    (search f = .rTooLarge ↔ f ≤ 7803) ∧
    (∀ d r pll : Nat,
      search f = .ok d r pll ↔ 7804 ≤ f ∧ f ≤ 150000000 ∧ SearchYields f d r pll)

/-- R30, R152, R154: the range of every result of the search. -/
def Obligations.SearchResultRange : Prop :=
  ∀ f d r pll : Nat, 1 ≤ f → search f = .ok d r pll →
    6 ≤ d ∧ d ≤ 900 ∧ d % 2 = 0 ∧ r ≤ 7 ∧ 675000006 ≤ pll ∧ pll ≤ 900000000 ∧
    d * 2 ^ r ≤ 900000000 / f

/-- R158: the numerator of the PLL parameters. -/
def Obligations.NumeratorOfPllParams : Prop :=
  (∀ f d r pll x : Nat, 1 ≤ f → search f = .ok d r pll → 1 ≤ x →
    let mult := (pllParams x pll).1
    let num := (pllParams x pll).2
    num = ((10 * pll) % x + (mult * x) % 10) * 0xFFFFF / x ∧
    (x % 10 = 0 → num < 0xFFFFF) ∧
    (8 * 0xFFFFF < x → num ≤ 0xFFFFF) ∧
    (x ≤ 8 * 0xFFFFF → 90 < mult)) ∧
  search 1000000 = .ok 900 0 900000000 ∧
  10 * 900000000 % 391304348 = 391304344 ∧ 22 * 391304348 % 10 = 6 ∧
  pllParams 391304348 900000000 = (22, 0xFFFFF) ∧
  pWords 22 0xFFFFF 0xFFFFF = ⟨2432, 0, 0xFFFFF⟩ ∧
  pWords 22 0xFFFFF 0xFFFFF = pWords 23 0 0xFFFFF

/-- R157: with a crystal of 9.89 to 45 MHz the multiplier of a searched frequency stays in 15..90. -/
def Obligations.MultiplierStaysInRange : Prop :=
  ∀ f d r pll x : Nat, 1 ≤ f → search f = .ok d r pll → 98901099 ≤ x → x ≤ 450000004 →
    15 ≤ (pllParams x pll).1 ∧ (pllParams x pll).1 ≤ 90

/-! ### The cache gate, one channel, channel 2 (42_search.md) -/

/-- R156: the cache gate. On a hit nothing is written; on a miss the integer encoder's two checks come
before any write. The caches have 10 and 3 bits (R25, R26), which hold every value that passes them. -/
def Obligations.CacheGateReprogramsOnlyOnAChange : Prop :=
  ∀ (k : Channel) (d r : Nat) (immediate : Bool) (s : State),
    ((s.div.get k).toNat = d ∧ (s.rsh.get k).toNat = r → cacheGate k d r immediate s = .done () s) ∧
    ((s.div.get k).toNat ≠ d ∨ (s.rsh.get k).toNat ≠ r →
      (d < 6 ∨ 900 < d ∨ d % 2 ≠ 0 → cacheGate k d r immediate s = .raised .msDivRange s) ∧
      (6 ≤ d ∧ d ≤ 900 ∧ d % 2 = 0 →
        (7 < r → cacheGate k d r immediate s = .raised .rDivRange s) ∧
        (r ≤ 7 →
          cacheGate k d r immediate s = .done ()
            { s with
              log := s.log ++ [.burst (msBase k s) (fracBytes d 0 1 (rcode r s)),
                  .single (ctrlReg k s) (enableByte k s)] ++
                (if immediate then [.single s.params.regMap.pllReset 0xA0] else [])
              div := s.div.set k (BitVec.ofNat 10 d)
              rsh := s.rsh.set k (BitVec.ofNat 3 r)
              owed := if immediate then s.owed else true })))

/-- R157, R256: one channel's program, whichever way it ends. -/
def Obligations.ProgramChannelOutcome : Prop :=
  ∀ (k : Channel) (f : Nat) (immediate : Bool) (s : State), 1 ≤ f →
    (150000001 ≤ f →
      programChannel k f immediate s = .done none
        { disabled k s with diag := s.diag ||| (1 <<< k.index) }) ∧
    (f ≤ 7803 → programChannel k f immediate s = .raised .rDivRange s) ∧
    (∀ d r pll mult num : Nat, 7804 ≤ f → f ≤ 150000000 → SearchYields f d r pll →
      mult = pll * 10 / s.xtal.toNat →
      num = (pll - mult * s.xtal.toNat / 10) * 0xFFFFF * 10 / s.xtal.toNat →
      (s.xtal = 0 → programChannel k f immediate s = .raised .xtalUnset s) ∧
      (s.xtal ≠ 0 →
        (mult < 15 ∨ 90 < mult → programChannel k f immediate s = .raised .pllMultRange s) ∧
        (15 ≤ mult ∧ mult ≤ 90 →
          programChannel k f immediate s =
            .done (some pll) (programmed k d r mult num (gateMisses k d r s) immediate s))))

/-- R162: channel 2 derived from a PLL-B frequency, whichever way it ends. -/
def Obligations.Ch2FracOutcome : Prop :=
  ∀ (pllb f2 : Nat) (s : State), pllb < 2 ^ 32 → 1 ≤ f2 →
    (pllb / f2 < 6 →
      ch2Frac pllb f2 s = .done () { disabled .ch2 s with diag := s.diag ||| 0b100 }) ∧
    (6 ≤ pllb / f2 →
      ∃ r : Nat, pllb / (f2 * 2 ^ r) ≤ 900 ∧ (∀ j < r, 900 < pllb / (f2 * 2 ^ j)) ∧
        (7 < r ↔ 900 < pllb / (f2 * 128)) ∧
        (7 < r → ch2Frac pllb f2 s = .raised .rDivRange s) ∧
        (r ≤ 7 →
          let d := pllb / (f2 * 2 ^ r)
          let num := pllb % (f2 * 2 ^ r) * 0xFFFFF / (f2 * 2 ^ r)
          let den := if num = 0 then 1 else 0xFFFFF
          6 ≤ d ∧ num < 0xFFFFF ∧
          ch2Frac pllb f2 s = .done ()
            { s with
              log := s.log ++ eightSingles (msBase .ch2 s) (fracBytes d num den (rcode r s)) ++
                [.single (ctrlReg .ch2 s) (0x4C ||| (s.pwr.get .ch2).setWidth 8 ||| 0x20)]
              div := s.div.set .ch2 0
              owed := true }))

/-! ### The controller's commands (43_controller.md) -/

/-- R181: INIT. -/
def Obligations.InitCommand : Prop :=
  ∀ (p0 p1 p2 : BitVec 2) (s : State), s.flt.v = false →
    exec (.init p0 p1 p2) s = .next
      { s with
        pwr := ⟨p0, p1, p2⟩
        log := s.log ++ [.single s.params.regMap.ctrl.ch0 0x80, .single s.params.regMap.ctrl.ch1 0x80,
          .single s.params.regMap.ctrl.ch2 0x80]
        div := ⟨0, 0, 0⟩
        f := ⟨0, 0, 0⟩
        fv := ⟨true, true, true⟩ }

/-- R183: SET_XTAL. -/
def Obligations.SetXtalCommand : Prop :=
  ∀ (x : BitVec 32) (rst : Bool) (s : State),
    opcodeOf (encode (.setXtal x rst)) = 0x02 ∧
    (s.flt.v = false →
      (x = 0 → exec (.setXtal x rst) s = .next (faulted 3 0x02 s)) ∧
      (x ≠ 0 →
        exec (.setXtal x rst) s = .next
          { s with
            xtal := x
            fv := ⟨false, false, false⟩
            log := s.log ++ (if rst then [.single s.params.regMap.pllReset 0xA0] else []) }))

/-- R185, R188, R200: SET_FREQ compares and latches, then processes channel 0, then the PLL-B group, then
strobes if a reset is owed; a fault on the way ends it there (R222). That OWED keeps its value after the
strobe is the model's reading (log entry 12), and that a faulting SET_FREQ keeps its diag bits is the model's
choice (log entry 8). -/
def Obligations.SetFreqOrder : Prop :=
  ∀ (f0 f1 f2 : BitVec 32) (s : State), s.flt.v = false →
    let c0 := changed .ch0 f0 s
    let c1 := changed .ch1 f1 s
    let c2 := changed .ch2 f2 s
    (∀ c s1, channel0 c0 f0.toNat (latched f0 f1 f2 s) = .raised c s1 →
      exec (.setFreq f0 f1 f2) s = .next (faulted c.code 0x03 s1)) ∧
    (∀ s1, channel0 c0 f0.toNat (latched f0 f1 f2 s) = .done () s1 →
      (∀ c s2, pllBGroup c1 c2 f1.toNat f2.toNat s1 = .raised c s2 →
        exec (.setFreq f0 f1 f2) s = .next (faulted c.code 0x03 s2)) ∧
      (∀ early s2, pllBGroup c1 c2 f1.toNat f2.toNat s1 = .done early s2 →
        exec (.setFreq f0 f1 f2) s = .next (finished early s2)))

/-- R186, R187, R189-R199: which path each channel takes, and R222: the state in which each path raises.
What the path wrote before the part that raises is kept, and the part that raises has written nothing. -/
def Obligations.BranchSelection : Prop :=
  ∀ (f0 f1 f2 : Nat) (s : State),
    channel0 false f0 s = .done () s ∧
    channel0 true 0 s = .done () (disabled .ch0 s) ∧
    (∀ res t, f0 ≠ 0 → programChannel .ch0 f0 false s = .done res t → channel0 true f0 s = .done () t) ∧
    (∀ c t, f0 ≠ 0 → programChannel .ch0 f0 false s = .raised c t →
      channel0 true f0 s = .raised c s) ∧
    pllBGroup false false f1 f2 s = .done false s ∧
    (∀ c2 pll t, f1 ≠ 0 → programChannel .ch1 f1 false s = .done (some pll) t →
      (f2 = 0 → pllBGroup true c2 f1 f2 s =
        .done false (disabled .ch2 { t with pllb := BitVec.ofNat 32 pll })) ∧
      (∀ u, f2 ≠ 0 →
        ch2Frac (BitVec.ofNat 32 pll).toNat f2 { t with pllb := BitVec.ofNat 32 pll } = .done () u →
        pllBGroup true c2 f1 f2 s = .done false u) ∧
      (∀ c u, f2 ≠ 0 →
        ch2Frac (BitVec.ofNat 32 pll).toNat f2 { t with pllb := BitVec.ofNat 32 pll } = .raised c u →
        pllBGroup true c2 f1 f2 s = .raised c { t with pllb := BitVec.ofNat 32 pll })) ∧
    (∀ c2 t, f1 ≠ 0 → programChannel .ch1 f1 false s = .done none t →
      pllBGroup true c2 f1 f2 s = .done true t) ∧
    (∀ c2 c t, f1 ≠ 0 → programChannel .ch1 f1 false s = .raised c t →
      pllBGroup true c2 f1 f2 s = .raised c s) ∧
    (f1 ≠ 0 → f2 = 0 → pllBGroup false true f1 f2 s = .done false (disabled .ch2 s)) ∧
    (∀ u, f1 ≠ 0 → f2 ≠ 0 → ch2Frac s.pllb.toNat f2 s = .done () u →
      pllBGroup false true f1 f2 s = .done false u) ∧
    (∀ c u, f1 ≠ 0 → f2 ≠ 0 → ch2Frac s.pllb.toNat f2 s = .raised c u →
      pllBGroup false true f1 f2 s = .raised c s) ∧
    (∀ c1 c2 res t, (c1 || c2) = true → f2 ≠ 0 →
      programChannel .ch2 f2 true (disabled .ch1 s) = .done res t →
      pllBGroup c1 c2 0 f2 s = .done false t) ∧
    (∀ c1 c2 c t, (c1 || c2) = true → f2 ≠ 0 →
      programChannel .ch2 f2 true (disabled .ch1 s) = .raised c t →
      pllBGroup c1 c2 0 f2 s = .raised c (disabled .ch1 s)) ∧
    (∀ c1 c2, (c1 || c2) = true →
      pllBGroup c1 c2 0 0 s = .done false (disabled .ch2 (disabled .ch1 s)))

/-- R185-R203: SET_FREQ completes without a fault when the crystal is in the range of R157, PLLB is legal
and no request is too low for R = 7; it latches the three requests, leaves every field it does not own,
and what a channel's request says of the channel's caches then holds. -/
def Obligations.SetFreqCompletes : Prop :=
  ∀ (f0 f1 f2 : BitVec 32) (s : State),
    s.flt.v = false → 98901099 ≤ s.xtal.toNat → s.xtal.toNat ≤ 450000004 → PllbLegal s.pllb →
    (Instr.setFreq f0 f1 f2).wellFormed = true →
    ∃ (t : State) (ts : List Transaction),
      exec (.setFreq f0 f1 f2) s = .next t ∧
      t = { s with f := ⟨f0, f1, f2⟩, fv := ⟨true, true, true⟩, div := t.div, rsh := t.rsh,
                   pllb := t.pllb, owed := t.owed, diag := t.diag, log := s.log ++ ts } ∧
      (changed .ch0 f0 s = true →
        (f0 = 0 ∨ 150000000 < f0.toNat → t.div.ch0 = 0 ∧ t.rsh.ch0 = s.rsh.ch0) ∧
        (∀ d r pll, f0 ≠ 0 → f0.toNat ≤ 150000000 → SearchYields f0.toNat d r pll →
          t.div.ch0.toNat = d ∧ t.rsh.ch0.toNat = r)) ∧
      (changed .ch1 f1 s = true →
        (f1 = 0 ∨ 150000000 < f1.toNat →
          t.div.ch1 = 0 ∧ t.rsh.ch1 = s.rsh.ch1 ∧ t.pllb = s.pllb) ∧
        (∀ d r pll, f1 ≠ 0 → f1.toNat ≤ 150000000 → SearchYields f1.toNat d r pll →
          t.div.ch1.toNat = d ∧ t.rsh.ch1.toNat = r ∧ t.pllb.toNat = pll ∧ t.div.ch2 = 0)) ∧
      (f1 = 0 → changed .ch1 f1 s = true ∨ changed .ch2 f2 s = true →
        (f2 = 0 ∨ 150000000 < f2.toNat → t.div.ch2 = 0 ∧ t.rsh.ch2 = s.rsh.ch2) ∧
        (∀ d r pll, f2 ≠ 0 → f2.toNat ≤ 150000000 → SearchYields f2.toNat d r pll →
          t.div.ch2.toNat = d ∧ t.rsh.ch2.toNat = r)) ∧
      (f1 ≠ 0 → changed .ch1 f1 s = false → changed .ch2 f2 s = true →
        t.div.ch2 = 0 ∧ t.pllb = s.pllb)

/-- R97, R187, R199: all three requests at 0, with any crystal: a changed channel 0 is one write of 0x80, a
changed channel 1 or 2 is two, and nothing is strobed. -/
def Obligations.AllOffWritesOnlyDisables : Prop :=
  ∀ s : State, s.flt.v = false →
    let c0 := changed .ch0 0 s
    let group := changed .ch1 0 s || changed .ch2 0 s
    exec (.setFreq 0 0 0) s = .next
      { latched 0 0 0 s with
        log := s.log ++ (if c0 then [.single s.params.regMap.ctrl.ch0 0x80] else []) ++
          (if group then
            [.single s.params.regMap.ctrl.ch1 0x80, .single s.params.regMap.ctrl.ch2 0x80]
           else [])
        div := ⟨if c0 then 0 else s.div.ch0, if group then 0 else s.div.ch1,
          if group then 0 else s.div.ch2⟩ }

/-- R187: channel 0 going to 0, with channels 1 and 2 unchanged, is exactly one write of 0x80, and the
cached divider is cleared. -/
def Obligations.Channel0OffIsOneWrite : Prop :=
  ∀ (f1 f2 : BitVec 32) (s : State), s.flt.v = false →
    ¬ Unchanged .ch0 0 s → Unchanged .ch1 f1 s → Unchanged .ch2 f2 s →
    exec (.setFreq 0 f1 f2) s = .next (disabled .ch0 (latched 0 f1 f2 s))

/-- R154-R157, R187, R200: channel 0 programmed, with channels 1 and 2 unchanged: every transaction of the
command and every field it writes. That OWED is still 1 after the batched strobe is the model's reading
(log entry 12). -/
def Obligations.Channel0ProgrammedAlone : Prop :=
  ∀ (f0 f1 f2 : BitVec 32) (s : State) (d r pll mult num : Nat), s.flt.v = false →
    ¬ Unchanged .ch0 f0 s → Unchanged .ch1 f1 s → Unchanged .ch2 f2 s →
    7804 ≤ f0.toNat → f0.toNat ≤ 150000000 → SearchYields f0.toNat d r pll →
    98901099 ≤ s.xtal.toNat → s.xtal.toNat ≤ 450000004 →
    mult = pll * 10 / s.xtal.toNat →
    num = (pll - mult * s.xtal.toNat / 10) * 0xFFFFF * 10 / s.xtal.toNat →
    exec (.setFreq f0 f1 f2) s = .next
      (finished false
        (programmed .ch0 d r mult num (gateMisses .ch0 d r s) false (latched f0 f1 f2 s)))

/-- R193, R196, R200, R201: the early return. Whatever channel 0 did, an underflow of a changed channel 1
disables it, sets its diagnostic bit, leaves channel 2's caches and registers and PLLB alone, and strobes
only a reset that is owed and that the parameter does not skip. That OWED keeps its value after that strobe
is the model's reading (log entry 12), and that the diagnostic bit stands in State its choice (log entry 8). -/
def Obligations.EarlyReturnLeavesChannel2Alone : Prop :=
  ∀ (f0 f1 f2 : BitVec 32) (s s1 : State), s.flt.v = false → s.params.wf = true →
    ¬ Unchanged .ch1 f1 s → 150000001 ≤ f1.toNat →
    channel0 (changed .ch0 f0 s) f0.toNat (latched f0 f1 f2 s) = .done () s1 →
    ∃ t : State,
      exec (.setFreq f0 f1 f2) s = .next t ∧
      t = { s1 with
        div := s1.div.set .ch1 0
        diag := s1.diag ||| 0b010
        log := s1.log ++ [.single s1.params.regMap.ctrl.ch1 0x80] ++
          (if s1.owed && !s1.params.earlyReturnSkipsReset
           then [.single s1.params.regMap.pllReset 0xA0] else []) } ∧
      t.div.ch1 = 0 ∧ t.div.ch2 = s.div.ch2 ∧ t.rsh.ch2 = s.rsh.ch2 ∧ t.pllb = s.pllb ∧
      ∀ a, a = s.params.regMap.ctrl.ch2.toNat ∨
          (s.params.regMap.msBase.ch2.toNat ≤ a ∧ a < s.params.regMap.msBase.ch2.toNat + 8) →
        t.readReg a = s.readReg a

/-- R34, R189: "calling set-frequencies twice with identical arguments after the first call produces zero
additional register writes", when the first call did not fault. -/
def Obligations.RepeatedSetFreqEmitsNothing : Prop :=
  ∀ (f0 f1 f2 : BitVec 32) (s t : State),
    exec (.setFreq f0 f1 f2) s = .next t → t.flt.v = false →
    exec (.setFreq f0 f1 f2) t = .next { t with owed := false, diag := 0 }

/-- R182: after INIT, `SET_FREQ 0, 0, 0` emits nothing. -/
def Obligations.AllOffAfterInitEmitsNothing : Prop :=
  ∀ (p0 p1 p2 : BitVec 2) (s : State), s.flt.v = false →
    ∃ t, exec (.init p0 p1 p2) s = .next t ∧
      exec (.setFreq 0 0 0) t = .next { t with owed := false, diag := 0 }

/-- R24, R183: after SET_XTAL every channel counts as changed at the next SET_FREQ, whatever it
requests. -/
def Obligations.SetXtalInvalidatesEveryChannel : Prop :=
  ∀ (x : BitVec 32) (rst : Bool) (s : State), s.flt.v = false → x ≠ 0 →
    ∃ t, exec (.setXtal x rst) s = .next t ∧ ∀ (k : Channel) (f : BitVec 32), changed k f t = true

/-- R258: DISABLE clears DIV[k] but leaves F[k]: a SET_FREQ that requests the same frequencies sees no
change and emits nothing. -/
def Obligations.DisabledChannelStaysDownOnTheSameRequest : Prop :=
  ∀ (ch : BitVec 8) (s : State), s.flt.v = false → ch.toNat ≤ 2 → s.fv = ⟨true, true, true⟩ →
    ∃ t, exec (.disable ch) s = .next t ∧
      exec (.setFreq s.f.ch0 s.f.ch1 s.f.ch2) t = .next { t with owed := false, diag := 0 }

/-- R186, R222: SET_FREQ latches the three requests even if it faults, and its frame: XTAL, PWR and the
model's own port, index and parameters keep their values. -/
def Obligations.SetFreqLatchesFirst : Prop :=
  ∀ (f0 f1 f2 : BitVec 32) (s t : State), s.flt.v = false →
    exec (.setFreq f0 f1 f2) s = .next t →
    t.f = ⟨f0, f1, f2⟩ ∧ t.fv = ⟨true, true, true⟩ ∧
    t.xtal = s.xtal ∧ t.pwr = s.pwr ∧ t.port = s.port ∧ t.pc = s.pc ∧ t.params = s.params ∧
    (t.flt.v = false → t.flt = s.flt)

/-- R185: "unchanged channels are untouched": caches and registers of an unchanged channel 0, and of
unchanged channels 1 and 2, keep their values. -/
def Obligations.UnchangedChannelsAreUntouched : Prop :=
  ∀ (f0 f1 f2 : BitVec 32) (s t : State), s.flt.v = false → s.params.wf = true →
    exec (.setFreq f0 f1 f2) s = .next t →
    (Unchanged .ch0 f0 s →
      t.div.ch0 = s.div.ch0 ∧ t.rsh.ch0 = s.rsh.ch0 ∧
      ∀ a, IsChannel0Reg s.params.regMap a → t.readReg a = s.readReg a) ∧
    (Unchanged .ch1 f1 s → Unchanged .ch2 f2 s →
      t.div.ch1 = s.div.ch1 ∧ t.rsh.ch1 = s.rsh.ch1 ∧ t.div.ch2 = s.div.ch2 ∧
      t.rsh.ch2 = s.rsh.ch2 ∧ t.pllb = s.pllb ∧
      ∀ a, IsGroupReg s.params.regMap a → t.readReg a = s.readReg a)

/-! ### State and its writers (10_state.md) -/

/-- The "written by" column of the table of 10_state.md §2, with PLLB narrowed to branch A (R29): a
command that is not named for a field leaves it alone, faulting or not. -/
def Obligations.OnlyTheNamedCommandsWriteAField : Prop :=
  ∀ (i : Instr) (s t : State), exec i s = .next t →
    (t.xtal ≠ s.xtal → ∃ x rst, i = .setXtal x rst) ∧
    (t.pwr ≠ s.pwr → ∃ p0 p1 p2, i = .init p0 p1 p2) ∧
    (t.f ≠ s.f → (∃ p0 p1 p2, i = .init p0 p1 p2) ∨ ∃ f0 f1 f2, i = .setFreq f0 f1 f2) ∧
    (t.fv ≠ s.fv → IsController i) ∧
    (t.div ≠ s.div → (∃ p0 p1 p2, i = .init p0 p1 p2) ∨ (∃ f0 f1 f2, i = .setFreq f0 f1 f2) ∨
      ∃ ch, i = .disable ch) ∧
    (t.rsh ≠ s.rsh → ∃ f0 f1 f2, i = .setFreq f0 f1 f2) ∧
    (t.pllb ≠ s.pllb → ∃ f0 f1 f2, i = .setFreq f0 f1 f2 ∧ f1 ≠ 0 ∧ changed .ch1 f1 s = true) ∧
    (t.owed ≠ s.owed ∨ t.diag ≠ s.diag → ∃ f0 f1 f2, i = .setFreq f0 f1 f2) ∧
    t.port = s.port ∧ t.pc = s.pc ∧ t.params = s.params

/-- R21 table, R30, R35 (a): every step keeps DIV and PLLB at legal values. -/
def Obligations.StepKeepsValuesLegal : Prop :=
  ∀ s t : State, ValuesLegal s → step s = .next t → ValuesLegal t

/-- R35 (c): a command of the controller keeps the divider caches truthful: a nonzero DIV[k] says what the
block last wrote to multisynth k and to CTRL[k]. The registers of the map are different ones. -/
def Obligations.ControllerKeepsCachesTruthful : Prop :=
  ∀ (i : Instr) (s t : State), IsController i → s.params.wf = true → CacheTruthful s →
    exec i s = .next t → CacheTruthful t

/-! ### Faults (60_exceptions.md) -/

/-- R222: what fault entry keeps and writes; a codec function raises before its first write. -/
def Obligations.FaultEntryKeepsEarlierEffects : Prop :=
  (∀ (op : Byte) (body : State → Ran Unit) (c : Cause) (s s' : State), s.flt.v = false →
    body s = .raised c s' → runCommand op body s = .next { s' with flt := ⟨true, c.code, op⟩ }) ∧
  (∀ (p : Pll) (a b c : Nat) (e : Cause) (s s' : State),
    encPll p a b c s = .raised e s' → s' = s) ∧
  (∀ (k : Channel) (d r : Nat) (e : Cause) (s s' : State), encMsInt k d r s = .raised e s' → s' = s) ∧
  (∀ (k : Channel) (d b c r : Nat) (e : Cause) (s s' : State),
    encMsFrac k d b c r s = .raised e s' → s' = s)

/-- R224: a faulted block refuses every command, legal or not, without any effect: a step changes at most
the port and the index of the host's sequence, which are no state of the block. Only reset clears FLT. -/
def Obligations.FaultedBlockRefusesEveryCommand : Prop :=
  ∀ s : State, s.flt.v = true →
    (∀ i : Instr, exec i s = .next s) ∧
    (∀ (w : CmdWord) (rest : List HostInput), s.port = .command w :: rest →
      ∃ t, step s = .next t ∧ t = { s with port := t.port, pc := t.pc }) ∧
    (∀ t : State, step s = .next t → t.flt ≠ s.flt → ∃ rest, s.port = .reset :: rest)

/-- R202: the only causes SET_FREQ raises are XTAL_UNSET, PLL_MULT_RANGE and R_DIV_RANGE. -/
def Obligations.SetFreqRaisesOnlyThreeCauses : Prop :=
  ∀ (f0 f1 f2 : BitVec 32) (s t : State), s.flt.v = false → exec (.setFreq f0 f1 f2) s = .next t →
    t.flt.v = true → t.flt = ⟨true, 4, 0x03⟩ ∨ t.flt = ⟨true, 5, 0x03⟩ ∨ t.flt = ⟨true, 9, 0x03⟩

/-- R221: every step keeps FLT at NONE or at a cause with a command that raises it. -/
def Obligations.StepKeepsFaultRegisterLegal : Prop :=
  ∀ s t : State, FaultLegal s.flt → step s = .next t → FaultLegal t.flt

/-! ### The step and reset -/

/-- R9, R12: a step on a command word that decodes is the command's own effect, in the state in which the
word has been taken off the port and the index of the host's sequence has moved by one. -/
def Obligations.StepRunsTheDecodedCommand : Prop :=
  ∀ (s : State) (w : CmdWord) (rest : List HostInput) (i : Instr),
    s.port = .command w :: rest → decode w = .instr i →
    step s = exec i { s with port := rest, pc := s.pc + 1 }

/-- R250, R251: the reset input sets every field of 10_state.md to its reset value and emits nothing. The
log, the rest of the port, the index and the parameters stay (the model's choice, log entry 9). -/
def Obligations.ResetInput : Prop :=
  ∀ (s : State) (rest : List HostInput), s.port = .reset :: rest →
    step s = .next
      { xtal := 0, f := ⟨0, 0, 0⟩, fv := ⟨true, true, true⟩, div := ⟨0, 0, 0⟩, rsh := ⟨0, 0, 0⟩,
        pwr := ⟨0, 0, 0⟩, pllb := 0, owed := false, flt := ⟨false, 0, 0⟩, diag := 0, log := s.log,
        port := rest, pc := s.pc, params := s.params }

/-- The invariants hold right after reset, and the default register map is well formed (R66, R250). -/
def Obligations.ResetMeetsTheInvariants : Prop :=
  ValuesLegal State.reset ∧ FaultLegal State.reset.flt ∧ LogLegal State.reset ∧
    CacheTruthful State.reset ∧ State.reset.params.wf = true

/-- R227: with nothing on the port a step changes nothing (the model's reading, log entry 1). -/
def Obligations.NothingHappensWithoutAnInput : Prop :=
  ∀ s : State, s.port = [] → step s = .next s

/-! ### A fault inside SET_FREQ -/

/-- R153, R162, R192, R222: branch A whose channel 2 is too low for R = 7, whatever channel 0 did. Channel 1's
writes, its caches and the new PLLB are kept, channel 2 has written nothing, nothing is strobed. That the
diagnostic bits channel 0 set are kept is the model's choice (log entry 8). -/
def Obligations.Channel2FaultKeepsChannel1 : Prop :=
  ∀ (f0 f1 f2 : BitVec 32) (s s1 : State) (d r pll mult num : Nat), s.flt.v = false →
    ¬ Unchanged .ch1 f1 s → 7804 ≤ f1.toNat → f1.toNat ≤ 150000000 → SearchYields f1.toNat d r pll →
    f2 ≠ 0 → 900 < pll / (f2.toNat * 128) →
    98901099 ≤ s.xtal.toNat → s.xtal.toNat ≤ 450000004 →
    mult = pll * 10 / s.xtal.toNat →
    num = (pll - mult * s.xtal.toNat / 10) * 0xFFFFF * 10 / s.xtal.toNat →
    channel0 (changed .ch0 f0 s) f0.toNat (latched f0 f1 f2 s) = .done () s1 →
    exec (.setFreq f0 f1 f2) s = .next (faulted 9 0x03
      { programmed .ch1 d r mult num (gateMisses .ch1 d r s1) false s1 with
        pllb := BitVec.ofNat 32 pll })

/-! ### The device address -/

/-- R62, R64, R66, R76: what a step emits reaches the transport as the calls of its transactions, whole and in
order, after the calls made before, and every call that begins a write names the machine's DEV_ADDR. That
the calls made before also stay at the reset input is the model's choice (log entry 9). -/
def Obligations.StepWritesToTheDeviceAddress : Prop :=
  ∀ s t : State, step s = .next t →
    ∃ ts : List Transaction,
      t.log = s.log ++ ts ∧
      t.busCalls = s.busCalls ++ ts.flatMap (transportCalls s.params.regMap.devAddr) ∧
      ∀ dev : BitVec 7, BusOp.beginWrite dev ∈ t.busCalls → dev = s.params.regMap.devAddr
end

