-- ==== Sys2Proof/Laws/State.lean ====
section
/-! SUPPORT. The fields after each update of State, so that no proof unfolds a record update. -/

namespace Sys2Proof

namespace PerChannel

variable {α : Type} (t : PerChannel α) (k j : Channel) (v : α)

@[simp] theorem get_set_same : (t.set k v).get k = v := by cases k <;> rfl

@[simp] theorem get_set_other (h : j ≠ k) : (t.set k v).get j = t.get j := by
  cases k <;> cases j <;> first | rfl | exact absurd rfl h

@[simp] theorem get_all : (PerChannel.all v).get k = v := by cases k <;> rfl

theorem get_set : (t.set k v).get j = if j = k then v else t.get j := by
  by_cases h : j = k
  · subst h; simp
  · simp [h]

theorem ext_get {t u : PerChannel α} (h : ∀ k, t.get k = u.get k) : t = u := by
  have h0 := h .ch0; have h1 := h .ch1; have h2 := h .ch2
  cases t; cases u; simp_all [PerChannel.get]

@[simp] theorem set_ch0 (a b c : α) : PerChannel.set ⟨a, b, c⟩ .ch0 v = ⟨v, b, c⟩ := rfl
@[simp] theorem set_ch1 (a b c : α) : PerChannel.set ⟨a, b, c⟩ .ch1 v = ⟨a, v, c⟩ := rfl
@[simp] theorem set_ch2 (a b c : α) : PerChannel.set ⟨a, b, c⟩ .ch2 v = ⟨a, b, v⟩ := rfl

end PerChannel

namespace Machine

variable (s : State) (k : Channel)

/-! `setAllFv` -/

@[simp] theorem setAllFv_xtal (v : Bool) : (setAllFv v s).xtal = s.xtal := rfl
@[simp] theorem setAllFv_f (v : Bool) : (setAllFv v s).f = s.f := rfl
@[simp] theorem setAllFv_fv (v : Bool) : (setAllFv v s).fv = PerChannel.all v := rfl
@[simp] theorem setAllFv_div (v : Bool) : (setAllFv v s).div = s.div := rfl
@[simp] theorem setAllFv_rsh (v : Bool) : (setAllFv v s).rsh = s.rsh := rfl
@[simp] theorem setAllFv_pwr (v : Bool) : (setAllFv v s).pwr = s.pwr := rfl
@[simp] theorem setAllFv_pllb (v : Bool) : (setAllFv v s).pllb = s.pllb := rfl
@[simp] theorem setAllFv_owed (v : Bool) : (setAllFv v s).owed = s.owed := rfl
@[simp] theorem setAllFv_flt (v : Bool) : (setAllFv v s).flt = s.flt := rfl
@[simp] theorem setAllFv_diag (v : Bool) : (setAllFv v s).diag = s.diag := rfl
@[simp] theorem setAllFv_log (v : Bool) : (setAllFv v s).log = s.log := rfl
@[simp] theorem setAllFv_port (v : Bool) : (setAllFv v s).port = s.port := rfl
@[simp] theorem setAllFv_pc (v : Bool) : (setAllFv v s).pc = s.pc := rfl
@[simp] theorem setAllFv_params (v : Bool) : (setAllFv v s).params = s.params := rfl

/-! `setOwed` -/

@[simp] theorem setOwed_xtal (v : Bool) : (setOwed v s).xtal = s.xtal := rfl
@[simp] theorem setOwed_f (v : Bool) : (setOwed v s).f = s.f := rfl
@[simp] theorem setOwed_fv (v : Bool) : (setOwed v s).fv = s.fv := rfl
@[simp] theorem setOwed_div (v : Bool) : (setOwed v s).div = s.div := rfl
@[simp] theorem setOwed_rsh (v : Bool) : (setOwed v s).rsh = s.rsh := rfl
@[simp] theorem setOwed_pwr (v : Bool) : (setOwed v s).pwr = s.pwr := rfl
@[simp] theorem setOwed_pllb (v : Bool) : (setOwed v s).pllb = s.pllb := rfl
@[simp] theorem setOwed_owed (v : Bool) : (setOwed v s).owed = v := rfl
@[simp] theorem setOwed_flt (v : Bool) : (setOwed v s).flt = s.flt := rfl
@[simp] theorem setOwed_diag (v : Bool) : (setOwed v s).diag = s.diag := rfl
@[simp] theorem setOwed_log (v : Bool) : (setOwed v s).log = s.log := rfl
@[simp] theorem setOwed_port (v : Bool) : (setOwed v s).port = s.port := rfl
@[simp] theorem setOwed_pc (v : Bool) : (setOwed v s).pc = s.pc := rfl
@[simp] theorem setOwed_params (v : Bool) : (setOwed v s).params = s.params := rfl

/-! `clearDiag` -/

@[simp] theorem clearDiag_xtal : (clearDiag s).xtal = s.xtal := rfl
@[simp] theorem clearDiag_f : (clearDiag s).f = s.f := rfl
@[simp] theorem clearDiag_fv : (clearDiag s).fv = s.fv := rfl
@[simp] theorem clearDiag_div : (clearDiag s).div = s.div := rfl
@[simp] theorem clearDiag_rsh : (clearDiag s).rsh = s.rsh := rfl
@[simp] theorem clearDiag_pwr : (clearDiag s).pwr = s.pwr := rfl
@[simp] theorem clearDiag_pllb : (clearDiag s).pllb = s.pllb := rfl
@[simp] theorem clearDiag_owed : (clearDiag s).owed = s.owed := rfl
@[simp] theorem clearDiag_flt : (clearDiag s).flt = s.flt := rfl
@[simp] theorem clearDiag_diag : (clearDiag s).diag = 0 := rfl
@[simp] theorem clearDiag_log : (clearDiag s).log = s.log := rfl
@[simp] theorem clearDiag_port : (clearDiag s).port = s.port := rfl
@[simp] theorem clearDiag_pc : (clearDiag s).pc = s.pc := rfl
@[simp] theorem clearDiag_params : (clearDiag s).params = s.params := rfl

/-! `setDiag` -/

@[simp] theorem setDiag_xtal : (setDiag k s).xtal = s.xtal := rfl
@[simp] theorem setDiag_f : (setDiag k s).f = s.f := rfl
@[simp] theorem setDiag_fv : (setDiag k s).fv = s.fv := rfl
@[simp] theorem setDiag_div : (setDiag k s).div = s.div := rfl
@[simp] theorem setDiag_rsh : (setDiag k s).rsh = s.rsh := rfl
@[simp] theorem setDiag_pwr : (setDiag k s).pwr = s.pwr := rfl
@[simp] theorem setDiag_pllb : (setDiag k s).pllb = s.pllb := rfl
@[simp] theorem setDiag_owed : (setDiag k s).owed = s.owed := rfl
@[simp] theorem setDiag_flt : (setDiag k s).flt = s.flt := rfl
@[simp] theorem setDiag_diag : (setDiag k s).diag = s.diag ||| (1 <<< k.index) := rfl
@[simp] theorem setDiag_log : (setDiag k s).log = s.log := rfl
@[simp] theorem setDiag_port : (setDiag k s).port = s.port := rfl
@[simp] theorem setDiag_pc : (setDiag k s).pc = s.pc := rfl
@[simp] theorem setDiag_params : (setDiag k s).params = s.params := rfl

/-! `setFault` -/

@[simp] theorem setFault_xtal (c : Cause) (op : Byte) : (setFault c op s).xtal = s.xtal := rfl
@[simp] theorem setFault_f (c : Cause) (op : Byte) : (setFault c op s).f = s.f := rfl
@[simp] theorem setFault_fv (c : Cause) (op : Byte) : (setFault c op s).fv = s.fv := rfl
@[simp] theorem setFault_div (c : Cause) (op : Byte) : (setFault c op s).div = s.div := rfl
@[simp] theorem setFault_rsh (c : Cause) (op : Byte) : (setFault c op s).rsh = s.rsh := rfl
@[simp] theorem setFault_pwr (c : Cause) (op : Byte) : (setFault c op s).pwr = s.pwr := rfl
@[simp] theorem setFault_pllb (c : Cause) (op : Byte) : (setFault c op s).pllb = s.pllb := rfl
@[simp] theorem setFault_owed (c : Cause) (op : Byte) : (setFault c op s).owed = s.owed := rfl
@[simp] theorem setFault_flt (c : Cause) (op : Byte) : (setFault c op s).flt = ⟨true, c.code, op⟩ := rfl
@[simp] theorem setFault_diag (c : Cause) (op : Byte) : (setFault c op s).diag = s.diag := rfl
@[simp] theorem setFault_log (c : Cause) (op : Byte) : (setFault c op s).log = s.log := rfl
@[simp] theorem setFault_port (c : Cause) (op : Byte) : (setFault c op s).port = s.port := rfl
@[simp] theorem setFault_pc (c : Cause) (op : Byte) : (setFault c op s).pc = s.pc := rfl
@[simp] theorem setFault_params (c : Cause) (op : Byte) : (setFault c op s).params = s.params := rfl

/-! `takeFault` -/

@[simp] theorem takeFault_xtal (c : Cause) (op : Byte) : (takeFault c op s).xtal = s.xtal := rfl
@[simp] theorem takeFault_f (c : Cause) (op : Byte) : (takeFault c op s).f = s.f := rfl
@[simp] theorem takeFault_fv (c : Cause) (op : Byte) : (takeFault c op s).fv = s.fv := rfl
@[simp] theorem takeFault_div (c : Cause) (op : Byte) : (takeFault c op s).div = s.div := rfl
@[simp] theorem takeFault_rsh (c : Cause) (op : Byte) : (takeFault c op s).rsh = s.rsh := rfl
@[simp] theorem takeFault_pwr (c : Cause) (op : Byte) : (takeFault c op s).pwr = s.pwr := rfl
@[simp] theorem takeFault_pllb (c : Cause) (op : Byte) : (takeFault c op s).pllb = s.pllb := rfl
@[simp] theorem takeFault_owed (c : Cause) (op : Byte) : (takeFault c op s).owed = s.owed := rfl
@[simp] theorem takeFault_flt (c : Cause) (op : Byte) : (takeFault c op s).flt = ⟨true, c.code, op⟩ := rfl
@[simp] theorem takeFault_diag (c : Cause) (op : Byte) : (takeFault c op s).diag = s.diag := rfl
@[simp] theorem takeFault_log (c : Cause) (op : Byte) : (takeFault c op s).log = s.log := rfl
@[simp] theorem takeFault_port (c : Cause) (op : Byte) : (takeFault c op s).port = s.port := rfl
@[simp] theorem takeFault_pc (c : Cause) (op : Byte) : (takeFault c op s).pc = s.pc := rfl
@[simp] theorem takeFault_params (c : Cause) (op : Byte) : (takeFault c op s).params = s.params := rfl

/-! `emit` -/

@[simp] theorem emit_xtal (t : Transaction) : (emit t s).xtal = s.xtal := rfl
@[simp] theorem emit_f (t : Transaction) : (emit t s).f = s.f := rfl
@[simp] theorem emit_fv (t : Transaction) : (emit t s).fv = s.fv := rfl
@[simp] theorem emit_div (t : Transaction) : (emit t s).div = s.div := rfl
@[simp] theorem emit_rsh (t : Transaction) : (emit t s).rsh = s.rsh := rfl
@[simp] theorem emit_pwr (t : Transaction) : (emit t s).pwr = s.pwr := rfl
@[simp] theorem emit_pllb (t : Transaction) : (emit t s).pllb = s.pllb := rfl
@[simp] theorem emit_owed (t : Transaction) : (emit t s).owed = s.owed := rfl
@[simp] theorem emit_flt (t : Transaction) : (emit t s).flt = s.flt := rfl
@[simp] theorem emit_diag (t : Transaction) : (emit t s).diag = s.diag := rfl
@[simp] theorem emit_log (t : Transaction) : (emit t s).log = s.log ++ [t] := rfl
@[simp] theorem emit_port (t : Transaction) : (emit t s).port = s.port := rfl
@[simp] theorem emit_pc (t : Transaction) : (emit t s).pc = s.pc := rfl
@[simp] theorem emit_params (t : Transaction) : (emit t s).params = s.params := rfl

/-! `single` -/

@[simp] theorem single_xtal (reg v : Byte) : (single reg v s).xtal = s.xtal := rfl
@[simp] theorem single_f (reg v : Byte) : (single reg v s).f = s.f := rfl
@[simp] theorem single_fv (reg v : Byte) : (single reg v s).fv = s.fv := rfl
@[simp] theorem single_div (reg v : Byte) : (single reg v s).div = s.div := rfl
@[simp] theorem single_rsh (reg v : Byte) : (single reg v s).rsh = s.rsh := rfl
@[simp] theorem single_pwr (reg v : Byte) : (single reg v s).pwr = s.pwr := rfl
@[simp] theorem single_pllb (reg v : Byte) : (single reg v s).pllb = s.pllb := rfl
@[simp] theorem single_owed (reg v : Byte) : (single reg v s).owed = s.owed := rfl
@[simp] theorem single_flt (reg v : Byte) : (single reg v s).flt = s.flt := rfl
@[simp] theorem single_diag (reg v : Byte) : (single reg v s).diag = s.diag := rfl
@[simp] theorem single_log (reg v : Byte) : (single reg v s).log = s.log ++ [.single reg v] := rfl
@[simp] theorem single_port (reg v : Byte) : (single reg v s).port = s.port := rfl
@[simp] theorem single_pc (reg v : Byte) : (single reg v s).pc = s.pc := rfl
@[simp] theorem single_params (reg v : Byte) : (single reg v s).params = s.params := rfl

/-! `burst` -/

@[simp] theorem burst_xtal (reg : Byte) (vs : List Byte) : (burst reg vs s).xtal = s.xtal := rfl
@[simp] theorem burst_f (reg : Byte) (vs : List Byte) : (burst reg vs s).f = s.f := rfl
@[simp] theorem burst_fv (reg : Byte) (vs : List Byte) : (burst reg vs s).fv = s.fv := rfl
@[simp] theorem burst_div (reg : Byte) (vs : List Byte) : (burst reg vs s).div = s.div := rfl
@[simp] theorem burst_rsh (reg : Byte) (vs : List Byte) : (burst reg vs s).rsh = s.rsh := rfl
@[simp] theorem burst_pwr (reg : Byte) (vs : List Byte) : (burst reg vs s).pwr = s.pwr := rfl
@[simp] theorem burst_pllb (reg : Byte) (vs : List Byte) : (burst reg vs s).pllb = s.pllb := rfl
@[simp] theorem burst_owed (reg : Byte) (vs : List Byte) : (burst reg vs s).owed = s.owed := rfl
@[simp] theorem burst_flt (reg : Byte) (vs : List Byte) : (burst reg vs s).flt = s.flt := rfl
@[simp] theorem burst_diag (reg : Byte) (vs : List Byte) : (burst reg vs s).diag = s.diag := rfl
@[simp] theorem burst_log (reg : Byte) (vs : List Byte) : (burst reg vs s).log = s.log ++ [.burst reg vs] := rfl
@[simp] theorem burst_port (reg : Byte) (vs : List Byte) : (burst reg vs s).port = s.port := rfl
@[simp] theorem burst_pc (reg : Byte) (vs : List Byte) : (burst reg vs s).pc = s.pc := rfl
@[simp] theorem burst_params (reg : Byte) (vs : List Byte) : (burst reg vs s).params = s.params := rfl

/-! `strobe` -/

@[simp] theorem strobe_xtal : (strobe s).xtal = s.xtal := rfl
@[simp] theorem strobe_f : (strobe s).f = s.f := rfl
@[simp] theorem strobe_fv : (strobe s).fv = s.fv := rfl
@[simp] theorem strobe_div : (strobe s).div = s.div := rfl
@[simp] theorem strobe_rsh : (strobe s).rsh = s.rsh := rfl
@[simp] theorem strobe_pwr : (strobe s).pwr = s.pwr := rfl
@[simp] theorem strobe_pllb : (strobe s).pllb = s.pllb := rfl
@[simp] theorem strobe_owed : (strobe s).owed = s.owed := rfl
@[simp] theorem strobe_flt : (strobe s).flt = s.flt := rfl
@[simp] theorem strobe_diag : (strobe s).diag = s.diag := rfl
@[simp] theorem strobe_log : (strobe s).log = s.log ++ [.single s.params.regMap.pllReset 0xA0] := rfl
@[simp] theorem strobe_port : (strobe s).port = s.port := rfl
@[simp] theorem strobe_pc : (strobe s).pc = s.pc := rfl
@[simp] theorem strobe_params : (strobe s).params = s.params := rfl

/-! `enable` -/

@[simp] theorem enable_xtal : (enable k s).xtal = s.xtal := rfl
@[simp] theorem enable_f : (enable k s).f = s.f := rfl
@[simp] theorem enable_fv : (enable k s).fv = s.fv := rfl
@[simp] theorem enable_div : (enable k s).div = s.div := rfl
@[simp] theorem enable_rsh : (enable k s).rsh = s.rsh := rfl
@[simp] theorem enable_pwr : (enable k s).pwr = s.pwr := rfl
@[simp] theorem enable_pllb : (enable k s).pllb = s.pllb := rfl
@[simp] theorem enable_owed : (enable k s).owed = s.owed := rfl
@[simp] theorem enable_flt : (enable k s).flt = s.flt := rfl
@[simp] theorem enable_diag : (enable k s).diag = s.diag := rfl
@[simp] theorem enable_log : (enable k s).log = s.log ++ [.single (ctrlReg k s) (enableByte k s)] := rfl
@[simp] theorem enable_port : (enable k s).port = s.port := rfl
@[simp] theorem enable_pc : (enable k s).pc = s.pc := rfl
@[simp] theorem enable_params : (enable k s).params = s.params := rfl

/-! `disableChannel` -/

@[simp] theorem disableChannel_xtal : (disableChannel k s).xtal = s.xtal := rfl
@[simp] theorem disableChannel_f : (disableChannel k s).f = s.f := rfl
@[simp] theorem disableChannel_fv : (disableChannel k s).fv = s.fv := rfl
@[simp] theorem disableChannel_div : (disableChannel k s).div = s.div.set k 0 := rfl
@[simp] theorem disableChannel_rsh : (disableChannel k s).rsh = s.rsh := rfl
@[simp] theorem disableChannel_pwr : (disableChannel k s).pwr = s.pwr := rfl
@[simp] theorem disableChannel_pllb : (disableChannel k s).pllb = s.pllb := rfl
@[simp] theorem disableChannel_owed : (disableChannel k s).owed = s.owed := rfl
@[simp] theorem disableChannel_flt : (disableChannel k s).flt = s.flt := rfl
@[simp] theorem disableChannel_diag : (disableChannel k s).diag = s.diag := rfl
@[simp] theorem disableChannel_log : (disableChannel k s).log = s.log ++ [.single (ctrlReg k s) 0x80] := rfl
@[simp] theorem disableChannel_port : (disableChannel k s).port = s.port := rfl
@[simp] theorem disableChannel_pc : (disableChannel k s).pc = s.pc := rfl
@[simp] theorem disableChannel_params : (disableChannel k s).params = s.params := rfl

/-! `latch` -/

@[simp] theorem latch_xtal (f0 f1 f2 : BitVec 32) : (latch f0 f1 f2 s).xtal = s.xtal := rfl
@[simp] theorem latch_f (f0 f1 f2 : BitVec 32) : (latch f0 f1 f2 s).f = ⟨f0, f1, f2⟩ := rfl
@[simp] theorem latch_fv (f0 f1 f2 : BitVec 32) : (latch f0 f1 f2 s).fv = PerChannel.all true := rfl
@[simp] theorem latch_div (f0 f1 f2 : BitVec 32) : (latch f0 f1 f2 s).div = s.div := rfl
@[simp] theorem latch_rsh (f0 f1 f2 : BitVec 32) : (latch f0 f1 f2 s).rsh = s.rsh := rfl
@[simp] theorem latch_pwr (f0 f1 f2 : BitVec 32) : (latch f0 f1 f2 s).pwr = s.pwr := rfl
@[simp] theorem latch_pllb (f0 f1 f2 : BitVec 32) : (latch f0 f1 f2 s).pllb = s.pllb := rfl
@[simp] theorem latch_owed (f0 f1 f2 : BitVec 32) : (latch f0 f1 f2 s).owed = false := rfl
@[simp] theorem latch_flt (f0 f1 f2 : BitVec 32) : (latch f0 f1 f2 s).flt = s.flt := rfl
@[simp] theorem latch_diag (f0 f1 f2 : BitVec 32) : (latch f0 f1 f2 s).diag = 0 := rfl
@[simp] theorem latch_log (f0 f1 f2 : BitVec 32) : (latch f0 f1 f2 s).log = s.log := rfl
@[simp] theorem latch_port (f0 f1 f2 : BitVec 32) : (latch f0 f1 f2 s).port = s.port := rfl
@[simp] theorem latch_pc (f0 f1 f2 : BitVec 32) : (latch f0 f1 f2 s).pc = s.pc := rfl
@[simp] theorem latch_params (f0 f1 f2 : BitVec 32) : (latch f0 f1 f2 s).params = s.params := rfl

end Machine

end Sys2Proof
end

