-- ==== Sys2Proof/Laws/Ops.lean ====
section
/-! SUPPORT. What the shared operations and the codec can do, said once: running and raising, the list of
singles, the outcome of each codec function, and the outcome of a command. -/

namespace Sys2Proof.Machine

/-! ### Running -/

section
variable {α β : Type}

@[simp] theorem andThen_done (a : α) (s : State) (k : α → State → Ran β) :
    (Ran.done a s).andThen k = k a s := rfl

@[simp] theorem andThen_raised (c : Cause) (s : State) (k : α → State → Ran β) :
    (Ran.raised c s).andThen k = .raised c s := rfl

theorem andThen_assoc {γ : Type} (m : Ran α) (k : α → State → Ran β) (j : β → State → Ran γ) :
    (m.andThen k).andThen j = m.andThen fun a s => (k a s).andThen j := by cases m <;> rfl

theorem guardFault_of {bad : Prop} [Decidable bad] (h : bad) (c : Cause) (s : State) (k : Ran α) :
    guardFault bad c s k = .raised c s := if_pos h

theorem guardFault_of_not {bad : Prop} [Decidable bad] (h : ¬ bad) (c : Cause) (s : State)
    (k : Ran α) : guardFault bad c s k = k := if_neg h

/-- What holds of where a part of a command has got to: `Q` of its end, `R` of its fault. -/
def Ran.Spec (m : Ran α) (Q : α → State → Prop) (R : Cause → State → Prop) : Prop :=
  match m with
  | .done a s => Q a s
  | .raised c s => R c s

theorem Ran.Spec.mono {m : Ran α} {Q Q' : α → State → Prop} {R R' : Cause → State → Prop}
    (h : m.Spec Q R) (hq : ∀ a s, Q a s → Q' a s) (hr : ∀ c s, R c s → R' c s) : m.Spec Q' R' := by
  cases m
  · exact hq _ _ h
  · exact hr _ _ h

/-- Parts in sequence: the second goes on from what the first leaves, a fault of either is a fault. -/
theorem Ran.Spec.andThen {m : Ran α} {k : α → State → Ran β} {Q : α → State → Prop}
    {Q' : β → State → Prop} {R : Cause → State → Prop} (hm : m.Spec Q R)
    (hk : ∀ a s, Q a s → (k a s).Spec Q' R) : (m.andThen k).Spec Q' R := by
  cases m
  · exact hk _ _ hm
  · exact hm

theorem guardFault_spec {bad : Prop} [Decidable bad] {c : Cause} {s : State} {k : Ran α}
    {Q : α → State → Prop} {R : Cause → State → Prop} (h : bad → R c s) (hk : ¬ bad → k.Spec Q R) :
    (guardFault bad c s k).Spec Q R := by
  unfold guardFault
  split
  · exact h ‹_›
  · exact hk ‹_›

end

/-! ### A command -/

@[simp] theorem runCommand_faulted (op : Byte) (body : State → Ran Unit) {s : State}
    (h : s.flt.v = true) : runCommand op body s = .next s := if_pos h

theorem runCommand_done (op : Byte) {body : State → Ran Unit} {s s' : State} (h : s.flt.v = false)
    (hb : body s = .done () s') : runCommand op body s = .next s' := by
  simp [runCommand, h, hb]

theorem runCommand_raised (op : Byte) {body : State → Ran Unit} {s s' : State} {c : Cause}
    (h : s.flt.v = false) (hb : body s = .raised c s') :
    runCommand op body s = .next (takeFault c op s') := by
  simp [runCommand, h, hb]

/-- A command always answers a next state: the same one when refused, the end of its body, or fault
entry. -/
theorem runCommand_cases (op : Byte) (body : State → Ran Unit) (s : State) :
    (s.flt.v = true ∧ runCommand op body s = .next s) ∨
    (s.flt.v = false ∧ ∃ s', body s = .done () s' ∧ runCommand op body s = .next s') ∨
    (s.flt.v = false ∧ ∃ c s', body s = .raised c s' ∧
      runCommand op body s = .next (takeFault c op s')) := by
  cases h : s.flt.v
  · cases hb : body s with
    | done a s' => exact .inr (.inl ⟨rfl, s', rfl, runCommand_done op h hb⟩)
    | raised c s' => exact .inr (.inr ⟨rfl, c, s', rfl, runCommand_raised op h hb⟩)
  · exact .inl ⟨rfl, runCommand_faulted op body h⟩

/-- To show something of a command's next state, show it of the refused one, of the end of the body, and
of fault entry. -/
theorem runCommand_next {op : Byte} {body : State → Ran Unit} {s t : State} {P : State → Prop}
    (h : runCommand op body s = .next t) (h0 : s.flt.v = true → P s)
    (hb : s.flt.v = false → (body s).Spec (fun _ s' => P s') (fun c s' => P (takeFault c op s'))) :
    P t := by
  rcases runCommand_cases op body s with ⟨hv, hr⟩ | ⟨hv, s', hd, hr⟩ | ⟨hv, c, s', hd, hr⟩ <;>
    rw [hr] at h <;> cases h
  · exact h0 hv
  · simpa [hd, Ran.Spec] using hb hv
  · simpa [hd, Ran.Spec] using hb hv

/-- Every command is a command of the machine with its own opcode byte and body. -/
def body (i : Instr) (s : State) : Ran Unit :=
  match i with
  | .init p0 p1 p2 => .done () (initBlock p0 p1 p2 s)
  | .setXtal x rst => setXtal x rst s
  | .setFreq f0 f1 f2 => setFreq f0 f1 f2 s
  | .encPll sel a b c => withSel (Pll.ofSel? sel.toNat) s fun p => encPll p a.toNat b.toNat c.toNat s
  | .encMsInt sel d r =>
      withSel (Channel.ofSel? sel.toNat) s fun k => encMsInt k d.toNat r.toNat s
  | .encMsFrac sel d b c r =>
      withSel (Channel.ofSel? sel.toNat) s fun k => encMsFrac k d.toNat b.toNat c.toNat r.toNat s
  | .disable ch => withSel (Channel.ofSel? ch.toNat) s fun k => .done () (disableChannel k s)

theorem exec_eq_runCommand (i : Instr) (s : State) :
    exec i s = runCommand i.opcode.byte (body i) s := by cases i <;> rfl

/-! ### Selectors -/

@[simp] theorem channel_ofSel_index (k : Channel) : Channel.ofSel? k.index = some k := by
  cases k <;> rfl

theorem channel_ofSel_none {n : Nat} (h : 2 < n) : Channel.ofSel? n = none := by
  obtain ⟨m, rfl⟩ : ∃ m, n = m + 3 := ⟨n - 3, by omega⟩
  rfl

theorem pll_ofSel_none {n : Nat} (h : 1 < n) : Pll.ofSel? n = none := by
  obtain ⟨m, rfl⟩ : ∃ m, n = m + 2 := ⟨n - 2, by omega⟩
  rfl

theorem channel_ofSel_some {n : Nat} {k : Channel} (h : Channel.ofSel? n = some k) :
    n = k.index := by
  by_cases hn : 2 < n
  · rw [channel_ofSel_none hn] at h; cases h
  · have : n = 0 ∨ n = 1 ∨ n = 2 := by omega
    rcases this with rfl | rfl | rfl <;> cases h <;> rfl

/-- A command with a selector raises BAD_SELECTOR or goes on with what the selector names. -/
theorem withSel_spec {α β : Type} {sel : Option α} {s : State} {f : α → Ran β}
    {Q : β → State → Prop} {R : Cause → State → Prop} (hn : sel = none → R .badSelector s)
    (hs : ∀ x, sel = some x → (f x).Spec Q R) : (withSel sel s f).Spec Q R := by
  cases sel
  · exact hn rfl
  · exact hs _ rfl

/-! ### Singles -/

/-- The transactions of `singles`. -/
def singleList (reg : Byte) (vs : List Byte) : List Transaction :=
  match vs with
  | [] => []
  | v :: rest => .single reg v :: singleList (reg + 1) rest

theorem singles_eq (reg : Byte) (vs : List Byte) (s : State) :
    singles reg vs s = { s with log := s.log ++ singleList reg vs } := by
  induction vs generalizing reg s with
  | nil => simp [singles, singleList]
  | cons v rest ih => simp [singles, singleList, ih, single, emit]

theorem mem_singleList {reg : Byte} {vs : List Byte} {t : Transaction}
    (h : t ∈ singleList reg vs) : ∃ i v, i < vs.length ∧ t = .single (reg + BitVec.ofNat 8 i) v := by
  induction vs generalizing reg with
  | nil => cases h
  | cons v rest ih =>
    simp only [singleList, List.mem_cons] at h
    rcases h with rfl | h
    · exact ⟨0, v, by simp, by simp⟩
    · obtain ⟨i, w, hi, rfl⟩ := ih h
      refine ⟨i + 1, w, by simpa using hi, ?_⟩
      congr 1
      rw [BitVec.add_assoc, BitVec.ofNat_add, BitVec.add_comm (1 : Byte)]
      rfl

theorem length_singleList (reg : Byte) (vs : List Byte) :
    (singleList reg vs).length = vs.length := by
  induction vs generalizing reg with
  | nil => rfl
  | cons v rest ih => simp [singleList, ih]

/-! ### The codec -/

theorem pWords_p1 (a b c : Nat) : (pWords a b c).p1 = 128 * a + 128 * b / c - 512 := rfl

/-- P2 is the remainder (41_codec.md R120). -/
theorem pWords_p2 (a b c : Nat) : (pWords a b c).p2 = 128 * b % c := by
  have := Nat.div_add_mod (128 * b) c
  show 128 * b - c * (128 * b / c) = 128 * b % c
  omega

theorem pWords_p3 (a b c : Nat) : (pWords a b c).p3 = c := rfl

@[simp] theorem length_pBlock (w : PWords) (rcode : Nat) : (pBlock w rcode).length = 8 := rfl

/-- ENC_PLL inside its domain is one burst. -/
theorem encPll_done {a b c : Nat} (ha : 15 ≤ a) (ha' : a ≤ 90) (hb : b ≤ 0xFFFFF) (hc : 1 ≤ c)
    (hc' : c ≤ 0xFFFFF) (p : Pll) (s : State) :
    encPll p a b c s = .done () (burst (pllBase p s) (pBlock (pWords a b c) 0) s) := by
  unfold encPll
  rw [guardFault_of_not (by simp only [Config.multMin, Config.multMax]; omega),
    guardFault_of_not (by simp only [Config.fracMax]; omega),
    guardFault_of_not (by simp only [Config.fracMax]; omega)]

/-- ENC_PLL raises a domain fault before any write, or is one burst. -/
theorem encPll_cases (p : Pll) (a b c : Nat) (s : State) :
    ((a < 15 ∨ 90 < a) ∧ encPll p a b c s = .raised .pllMultRange s) ∨
    (15 ≤ a ∧ a ≤ 90 ∧ 0xFFFFF < b ∧ encPll p a b c s = .raised .fracNumRange s) ∨
    (15 ≤ a ∧ a ≤ 90 ∧ b ≤ 0xFFFFF ∧ (c < 1 ∨ 0xFFFFF < c) ∧
      encPll p a b c s = .raised .fracDenRange s) ∨
    (15 ≤ a ∧ a ≤ 90 ∧ b ≤ 0xFFFFF ∧ 1 ≤ c ∧ c ≤ 0xFFFFF ∧
      encPll p a b c s = .done () (burst (pllBase p s) (pBlock (pWords a b c) 0) s)) := by
  by_cases h1 : a < 15 ∨ 90 < a
  · exact .inl ⟨h1, guardFault_of h1 _ _ _⟩
  by_cases h2 : 0xFFFFF < b
  · refine .inr (.inl ⟨by omega, by omega, h2, ?_⟩)
    exact (guardFault_of_not h1 _ _ _).trans (guardFault_of h2 _ _ _)
  by_cases h3 : c < 1 ∨ 0xFFFFF < c
  · refine .inr (.inr (.inl ⟨by omega, by omega, by omega, h3, ?_⟩))
    exact (guardFault_of_not h1 _ _ _).trans
      ((guardFault_of_not h2 _ _ _).trans (guardFault_of h3 _ _ _))
  · exact .inr (.inr (.inr ⟨by omega, by omega, by omega, by omega, by omega,
      encPll_done (by omega) (by omega) (by omega) (by omega) (by omega) p s⟩))

/-- ENC_MS_INT inside its domain is one burst. -/
theorem encMsInt_done {d r : Nat} (hd : 6 ≤ d) (hd' : d ≤ 900) (he : d % 2 = 0) (hr : r ≤ 7)
    (k : Channel) (s : State) :
    encMsInt k d r s = .done () (burst (msBase k s) (pBlock (pWords d 0 1) (rCode r s)) s) := by
  unfold encMsInt
  rw [guardFault_of_not (by simp only [Config.divMin, Config.divMax]; omega),
    guardFault_of_not (by simp only [Config.rMax]; omega)]

/-- ENC_MS_INT raises a domain fault before any write, or is one burst. -/
theorem encMsInt_cases (k : Channel) (d r : Nat) (s : State) :
    ((d < 6 ∨ 900 < d ∨ d % 2 ≠ 0) ∧ encMsInt k d r s = .raised .msDivRange s) ∨
    (6 ≤ d ∧ d ≤ 900 ∧ d % 2 = 0 ∧ 7 < r ∧ encMsInt k d r s = .raised .rDivRange s) ∨
    (6 ≤ d ∧ d ≤ 900 ∧ d % 2 = 0 ∧ r ≤ 7 ∧
      encMsInt k d r s = .done () (burst (msBase k s) (pBlock (pWords d 0 1) (rCode r s)) s)) := by
  by_cases h1 : d < 6 ∨ 900 < d ∨ d % 2 ≠ 0
  · exact .inl ⟨h1, guardFault_of h1 _ _ _⟩
  by_cases h2 : 7 < r
  · refine .inr (.inl ⟨by omega, by omega, by omega, h2, ?_⟩)
    exact (guardFault_of_not h1 _ _ _).trans (guardFault_of h2 _ _ _)
  · exact .inr (.inr ⟨by omega, by omega, by omega, by omega,
      encMsInt_done (by omega) (by omega) (by omega) (by omega) k s⟩)

/-- ENC_MS_FRAC inside its domain is eight singles. -/
theorem encMsFrac_done {d b c r : Nat} (hd : 6 ≤ d) (hd' : d ≤ 900) (hb : b ≤ 0xFFFFF) (hc : 1 ≤ c)
    (hc' : c ≤ 0xFFFFF) (hr : r ≤ 7) (k : Channel) (s : State) :
    encMsFrac k d b c r s =
      .done () (singles (msBase k s) (pBlock (pWords d b c) (rCode r s)) s) := by
  unfold encMsFrac
  rw [guardFault_of_not (by simp only [Config.divMin, Config.divMax]; omega),
    guardFault_of_not (by simp only [Config.fracMax]; omega),
    guardFault_of_not (by simp only [Config.fracMax]; omega),
    guardFault_of_not (by simp only [Config.rMax]; omega)]

/-- ENC_MS_FRAC raises a domain fault before any write, or is eight singles. -/
theorem encMsFrac_cases (k : Channel) (d b c r : Nat) (s : State) :
    ((d < 6 ∨ 900 < d) ∧ encMsFrac k d b c r s = .raised .msDivRange s) ∨
    (6 ≤ d ∧ d ≤ 900 ∧ 0xFFFFF < b ∧ encMsFrac k d b c r s = .raised .fracNumRange s) ∨
    (6 ≤ d ∧ d ≤ 900 ∧ b ≤ 0xFFFFF ∧ (c < 1 ∨ 0xFFFFF < c) ∧
      encMsFrac k d b c r s = .raised .fracDenRange s) ∨
    (6 ≤ d ∧ d ≤ 900 ∧ b ≤ 0xFFFFF ∧ 1 ≤ c ∧ c ≤ 0xFFFFF ∧ 7 < r ∧
      encMsFrac k d b c r s = .raised .rDivRange s) ∨
    (6 ≤ d ∧ d ≤ 900 ∧ b ≤ 0xFFFFF ∧ 1 ≤ c ∧ c ≤ 0xFFFFF ∧ r ≤ 7 ∧
      encMsFrac k d b c r s =
        .done () (singles (msBase k s) (pBlock (pWords d b c) (rCode r s)) s)) := by
  by_cases h1 : d < 6 ∨ 900 < d
  · exact .inl ⟨h1, guardFault_of h1 _ _ _⟩
  by_cases h2 : 0xFFFFF < b
  · refine .inr (.inl ⟨by omega, by omega, h2, ?_⟩)
    exact (guardFault_of_not h1 _ _ _).trans (guardFault_of h2 _ _ _)
  by_cases h3 : c < 1 ∨ 0xFFFFF < c
  · refine .inr (.inr (.inl ⟨by omega, by omega, by omega, h3, ?_⟩))
    exact (guardFault_of_not h1 _ _ _).trans
      ((guardFault_of_not h2 _ _ _).trans (guardFault_of h3 _ _ _))
  by_cases h4 : 7 < r
  · refine .inr (.inr (.inr (.inl ⟨by omega, by omega, by omega, by omega, by omega, h4, ?_⟩)))
    exact (guardFault_of_not h1 _ _ _).trans
      ((guardFault_of_not h2 _ _ _).trans
        ((guardFault_of_not h3 _ _ _).trans (guardFault_of h4 _ _ _)))
  · exact .inr (.inr (.inr (.inr ⟨by omega, by omega, by omega, by omega, by omega, by omega,
      encMsFrac_done (by omega) (by omega) (by omega) (by omega) (by omega) (by omega) k s⟩)))

end Sys2Proof.Machine
end

