-- ==== Sys2Proof/Laws/Bus.lean ====
section
/-! SUPPORT. The register image: read after write, the canonical form, and what a transaction does. The
transport calls: what appending to the log adds, and the device they name. -/

namespace Sys2Proof.Machine.Image

theorem read_write_same (m : Image) (a : Nat) (v : Byte) : (m.write a v).read a = some v := by
  induction m with
  | nil => simp [write, read]
  | cons c rest ih =>
    unfold write
    split
    · simp [read]
    split
    · simp [read]
    · have : c.1 ≠ a := by omega
      simp [read, this, ih]

theorem read_write_other (m : Image) {a b : Nat} (v : Byte) (h : b ≠ a) :
    (m.write a v).read b = m.read b := by
  induction m with
  | nil => simp [write, read, Ne.symm h]
  | cons c rest ih =>
    unfold write
    split
    · simp [read, Ne.symm h]
    split
    · rename_i h1 h2
      have : c.1 ≠ b := by omega
      simp [read, Ne.symm h, this]
    · simp [read, ih]

theorem read_write (m : Image) (a b : Nat) (v : Byte) :
    (m.write a v).read b = if b = a then some v else m.read b := by
  by_cases h : b = a
  · subst h; simp [read_write_same]
  · simp [read_write_other m v h, h]

/-- A cell of the image after a write is the written one or one of before. -/
theorem mem_write {m : Image} {a : Nat} {v : Byte} {c : Host.Cell} (h : c ∈ m.write a v) :
    c = (a, v) ∨ c ∈ m := by
  induction m with
  | nil => simpa [write] using h
  | cons d rest ih =>
    unfold write at h
    split at h
    · simpa using h
    split at h
    · simp only [List.mem_cons] at h ⊢
      tauto
    · simp only [List.mem_cons] at h ⊢
      rcases h with h | h
      · exact .inr (.inl h)
      · rcases ih h with h | h
        · exact .inl h
        · exact .inr (.inr h)

/-- A write keeps the canonical form. -/
theorem write_wf {m : Image} (h : wf m) {a : Nat} (ha : a < 256) (v : Byte) : wf (m.write a v) := by
  obtain ⟨hp, hb⟩ := h
  refine ⟨?_, fun c hc => ?_⟩
  · induction m with
    | nil => simp [write]
    | cons c rest ih =>
      rw [List.pairwise_cons] at hp
      unfold write
      split
      · rename_i hlt
        refine List.pairwise_cons.2 ⟨fun x hx => ?_, List.pairwise_cons.2 hp⟩
        rcases List.mem_cons.1 hx with rfl | hx
        · exact hlt
        · exact Nat.lt_trans hlt (hp.1 x hx)
      split
      · rename_i _ heq
        exact List.pairwise_cons.2 ⟨fun x hx => heq ▸ hp.1 x hx, hp.2⟩
      · refine List.pairwise_cons.2 ⟨fun x hx => ?_, ih hp.2 fun d hd => hb d (List.mem_cons_of_mem _ hd)⟩
        rcases mem_write hx with rfl | hx
        · show c.1 < a
          omega
        · exact hp.1 x hx
  · rcases mem_write hc with rfl | hc
    · exact ha
    · exact hb c hc

theorem writeAll_wf {m : Image} (h : wf m) (reg : Byte) (vs : List Byte) : wf (m.writeAll reg vs) := by
  induction vs generalizing m reg with
  | nil => exact h
  | cons v rest ih => exact ih (write_wf h reg.isLt v) (reg + 1)

/-- Every transaction keeps the canonical form. -/
theorem apply_wf {m : Image} (h : wf m) (t : Transaction) : wf (m.apply t) := by
  cases t with
  | single reg v => exact write_wf h reg.isLt v
  | burst reg vs => exact writeAll_wf h reg vs

/-- A transaction leaves a register alone that none of its bytes goes to. -/
theorem read_writeAll_other (m : Image) (reg : Byte) (vs : List Byte) {a : Nat}
    (h : ∀ i < vs.length, a ≠ (reg + BitVec.ofNat 8 i).toNat) :
    (m.writeAll reg vs).read a = m.read a := by
  induction vs generalizing m reg with
  | nil => rfl
  | cons v rest ih =>
    have h0 : a ≠ reg.toNat := by simpa using h 0 (by simp)
    rw [writeAll, ih, read_write_other m v h0]
    intro i hi
    have := h (i + 1) (by simpa using hi)
    rwa [BitVec.ofNat_add, BitVec.add_comm (BitVec.ofNat 8 i), ← BitVec.add_assoc] at this

end Sys2Proof.Machine.Image

namespace Sys2Proof.Machine

@[simp] theorem imageOf_nil : imageOf [] = [] := rfl

theorem imageOf_append (log ts : List Transaction) :
    imageOf (log ++ ts) = ts.foldl Image.apply (imageOf log) := by simp [imageOf]

/-- A run of singles has the effect of one burst of the same bytes. -/
theorem foldl_singleList (m : Image) (reg : Byte) (vs : List Byte) :
    (singleList reg vs).foldl Image.apply m = m.writeAll reg vs := by
  induction vs generalizing m reg with
  | nil => rfl
  | cons v rest ih => simp [singleList, ih, Image.apply, Image.writeAll]

/-! ### The transport calls -/

@[simp] theorem busTrace_append (m : RegMap) (log ts : List Transaction) :
    busTrace m (log ++ ts) = busTrace m log ++ busTrace m ts := List.flatMap_append

/-- Every write that a log begins goes to the map's DEV_ADDR. -/
theorem beginWrite_mem_busTrace {m : RegMap} {log : List Transaction} {dev : BitVec 7}
    (h : BusOp.beginWrite dev ∈ busTrace m log) : dev = m.devAddr := by
  obtain ⟨t, _, ht⟩ := List.mem_flatMap.1 h
  cases t <;> simpa [Transaction.busOps] using ht

/-- What a state that appends to the log, and keeps the parameters, adds to the transport calls. -/
theorem busCalls_of_append {s s' : State} {ts : List Transaction} (hp : s'.params = s.params)
    (hl : s'.log = s.log ++ ts) : s'.busCalls = s.busCalls ++ busTrace s.params.regMap ts := by
  simp [State.busCalls, hp, hl]

end Sys2Proof.Machine
end

