-- ==== Sys2Proof/Laws/Decode.lean ====
section
/-! SUPPORT. The opcode map, and the bits of an encoded command. -/

namespace Sys2Proof

@[simp] theorem Opcode.ofByte?_byte (op : Opcode) : Opcode.ofByte? op.byte = some op := by
  cases op <;> decide

/-- The opcode map is one to one. -/
theorem Opcode.ofByte?_eq_some {b : Byte} {op : Opcode} (h : Opcode.ofByte? b = some op) :
    b = op.byte := by
  unfold Opcode.ofByte? at h
  split at h
  · cases h; assumption
  split at h
  · cases h; assumption
  split at h
  · cases h; assumption
  split at h
  · cases h; assumption
  split at h
  · cases h; assumption
  split at h
  · cases h; assumption
  split at h
  · cases h; assumption
  · cases h

/-- A decoded word has the opcode of its command and no reserved bit. -/
theorem decode_eq_instr {w : CmdWord} {i : Instr} (h : decode w = .instr i) :
    ∃ op, Opcode.ofByte? (opcodeOf w) = some op ∧ w &&& op.reservedMask = 0 ∧ i = operandsOf op w := by
  unfold decode at h
  split at h
  · cases h
  · rename_i op hop
    split at h
    · rename_i hr
      cases h
      exact ⟨op, hop, hr, rfl⟩
    · cases h

theorem operandsOf_opcode (op : Opcode) (w : CmdWord) : (operandsOf op w).opcode = op := by
  cases op <;> rfl

/-- A field of a placed word, bit by bit. -/
theorem getLsbD_place {n : Nat} (lo : Nat) (v : BitVec n) (i : Nat) :
    (place lo v).getLsbD i = (decide (i < 128) && !decide (i < lo) && v.getLsbD (i - lo)) := by
  simp only [place, BitVec.getLsbD_shiftLeft, BitVec.getLsbD_setWidth]
  by_cases h : i < 128 <;> by_cases h' : i < lo <;> simp [h, h']
  omega

/-- A field read back where it was placed. -/
theorem extractLsb'_place {n : Nat} (lo : Nat) (v : BitVec n) (h : lo + n ≤ 128) :
    (place lo v).extractLsb' lo n = v := by
  ext i hi
  simp only [BitVec.getElem_extractLsb', getLsbD_place]
  have h1 : lo + i < 128 := by omega
  simp [h1, BitVec.getLsbD_eq_getElem hi]

/-- A field read where another one stands is 0. -/
theorem extractLsb'_place_other {n m : Nat} (lo lo' : Nat) (v : BitVec n)
    (h : lo' + m ≤ lo ∨ lo + n ≤ lo') : (place lo v).extractLsb' lo' m = 0#m := by
  ext i hi
  simp only [BitVec.getElem_extractLsb', getLsbD_place]
  rcases h with h | h
  · have : lo' + i < lo := by omega
    simp [this]
  · have : n ≤ lo' + i - lo := by omega
    simp [BitVec.getLsbD_of_ge _ _ this]

theorem extractLsb'_or (a b : CmdWord) (lo n : Nat) :
    (a ||| b).extractLsb' lo n = a.extractLsb' lo n ||| b.extractLsb' lo n := by
  ext i hi; simp

/-- The opcode byte of an encoded command. -/
theorem opcodeOf_encode (i : Instr) : opcodeOf (encode i) = i.opcode.byte := by
  unfold opcodeOf encode
  cases i <;>
    simp (disch := omega) only [operandBits, extractLsb'_or, extractLsb'_place,
      extractLsb'_place_other, BitVec.or_zero]

/-- A placed field has no bit of a mask that leaves its range clear. -/
theorem place_and_mask {n : Nat} (lo : Nat) (v : BitVec n) (m : CmdWord)
    (h : ∀ j < 128, lo ≤ j → j < lo + n → m.getLsbD j = false) : place lo v &&& m = 0#128 := by
  apply BitVec.eq_of_getLsbD_eq
  intro j hj
  simp only [BitVec.getLsbD_and, getLsbD_place, BitVec.getLsbD_zero]
  by_cases h1 : j < lo
  · simp [h1]
  by_cases h2 : j < lo + n
  · simp [h j hj (by omega) h2]
  · simp [BitVec.getLsbD_of_ge v (j - lo) (by omega)]

theorem or_and_mask (a b m : CmdWord) : (a ||| b) &&& m = a &&& m ||| b &&& m := by
  apply BitVec.eq_of_getLsbD_eq
  intro j hj
  simp [Bool.and_or_distrib_right]

end Sys2Proof
end

