-- ==== Sys2Proof/Laws/Search.lean ====
section
/-! SUPPORT. What the loops, the search, the cache gate, one channel's program and channel 2's derivation
can do. -/

namespace Sys2Proof.Machine

/-! ### The loops -/

/-- The halving loop stops at the least shift that brings d down to 900, unless its fuel ends first. -/
theorem halveLoop_spec (n r d : Nat) :
    ∃ j, halveLoop n r d = (r + j, d / 2 ^ j) ∧ (∀ i < j, 900 < d / 2 ^ i) ∧
      (d / 2 ^ j ≤ 900 ∨ j = n) := by
  induction n generalizing r d with
  | zero => exact ⟨0, by simp [halveLoop], by simp, .inr rfl⟩
  | succ n ih =>
    by_cases h : Config.divMax < d
    · obtain ⟨j, he, hlt, hend⟩ := ih (r + 1) (d / 2)
      refine ⟨j + 1, ?_, ?_, ?_⟩
      · rw [halveLoop, if_pos h, he, Nat.div_div_eq_div_mul, Nat.pow_succ']
        simp only [Prod.mk.injEq, and_true]
        omega
      · intro i hi
        cases i with
        | zero => simpa [Config.divMax] using h
        | succ i =>
          rw [Nat.pow_succ', ← Nat.div_div_eq_div_mul]
          exact hlt i (by omega)
      · rw [Nat.pow_succ', ← Nat.div_div_eq_div_mul]
        omega
    · exact ⟨0, by rw [halveLoop, if_neg h]; simp, by simp, .inl (by simp [Config.divMax] at h ⊢; omega)⟩

/-- With a 32-bit dividend the fuel does not end first. -/
theorem halveLoop_fuel {d : Nat} (hd : d < 2 ^ 32) :
    ∃ j, halveLoop loopFuel 0 d = (j, d / 2 ^ j) ∧ (∀ i < j, 900 < d / 2 ^ i) ∧ d / 2 ^ j ≤ 900 := by
  obtain ⟨j, he, hlt, hend⟩ := halveLoop_spec loopFuel 0 d
  refine ⟨j, by simpa using he, hlt, ?_⟩
  rcases hend with h | rfl
  · exact h
  · rw [loopFuel, Nat.div_eq_of_lt hd]; omega

/-- The doubling loop stops at the least shift that brings the quotient down to 900, unless its fuel ends
first. -/
theorem doubleLoop_spec (n p r sf : Nat) :
    ∃ j, doubleLoop n p r sf = (r + j, sf * 2 ^ j) ∧ (∀ i < j, 900 < p / (sf * 2 ^ i)) ∧
      (p / (sf * 2 ^ j) ≤ 900 ∨ j = n) := by
  induction n generalizing r sf with
  | zero => exact ⟨0, by simp [doubleLoop], by simp, .inr rfl⟩
  | succ n ih =>
    by_cases h : Config.divMax < p / sf
    · obtain ⟨j, he, hlt, hend⟩ := ih (r + 1) (sf * 2)
      refine ⟨j + 1, ?_, ?_, ?_⟩
      · rw [doubleLoop, if_pos h, he, Nat.pow_succ', Nat.mul_assoc]
        simp only [Prod.mk.injEq, and_true]
        omega
      · intro i hi
        cases i with
        | zero => simpa [Config.divMax] using h
        | succ i =>
          rw [Nat.pow_succ', ← Nat.mul_assoc]
          exact hlt i (by omega)
      · rw [Nat.pow_succ', ← Nat.mul_assoc]
        omega
    · exact ⟨0, by rw [doubleLoop, if_neg h]; simp, by simp, .inl (by simp [Config.divMax] at h ⊢; omega)⟩

/-- With a 32-bit dividend the fuel does not end first. -/
theorem doubleLoop_fuel {p f : Nat} (hp : p < 2 ^ 32) (hf : 1 ≤ f) :
    ∃ j, doubleLoop loopFuel p 0 f = (j, f * 2 ^ j) ∧ (∀ i < j, 900 < p / (f * 2 ^ i)) ∧
      p / (f * 2 ^ j) ≤ 900 := by
  obtain ⟨j, he, hlt, hend⟩ := doubleLoop_spec loopFuel p 0 f
  refine ⟨j, by simpa using he, hlt, ?_⟩
  rcases hend with h | rfl
  · exact h
  · rw [loopFuel, Nat.div_eq_of_lt (Nat.lt_of_lt_of_le hp (Nat.le_mul_of_pos_left _ hf))]; omega

/-! ### The search -/

/-- The search underflows on a first quotient below 6; else it finds the least shift, refuses one above 7,
and yields the evened divider and the exact product. -/
theorem search_cases (f : Nat) :
    (900000000 / f < 6 ∧ search f = .underflow) ∨
    (6 ≤ 900000000 / f ∧ ∃ r, (∀ i < r, 900 < 900000000 / f / 2 ^ i) ∧
      900000000 / f / 2 ^ r ≤ 900 ∧
      ((7 < r ∧ search f = .rTooLarge) ∨
       (r ≤ 7 ∧ search f = .ok (900000000 / f / 2 ^ r - 900000000 / f / 2 ^ r % 2) r
          ((900000000 / f / 2 ^ r - 900000000 / f / 2 ^ r % 2) * f * 2 ^ r)))) := by
  have hq : 900000000 / f < 2 ^ 32 := Nat.lt_of_le_of_lt (Nat.div_le_self _ _) (by decide)
  obtain ⟨r, he, hlt, hle⟩ := halveLoop_fuel hq
  by_cases h : 900000000 / f < 6
  · exact .inl ⟨h, by simp [search, Config.fpllCeil, Config.divMin, h]⟩
  · refine .inr ⟨by omega, r, hlt, hle, ?_⟩
    by_cases h7 : 7 < r
    · exact .inl ⟨h7, by simp [search, Config.fpllCeil, Config.divMin, Config.rMax, h, he, h7]⟩
    · exact .inr ⟨by omega, by
        simp [search, Config.fpllCeil, Config.divMin, Config.rMax, h, he, h7, clearBit0]⟩

/-- A search yields an even divider in 6..900 and a shift of at most 7. -/
theorem search_ok {f d r pll : Nat} (h : search f = .ok d r pll) :
    6 ≤ d ∧ d ≤ 900 ∧ d % 2 = 0 ∧ r ≤ 7 ∧ pll = d * f * 2 ^ r := by
  rcases search_cases f with ⟨_, hs⟩ | ⟨h6, r', hlt, hle, ⟨_, hs⟩ | ⟨h7, hs⟩⟩ <;> rw [hs] at h <;>
    cases h
  have hd : 6 ≤ 900000000 / f / 2 ^ r := by
    cases r with
    | zero => simpa using h6
    | succ r =>
      have := hlt r (by omega)
      rw [Nat.pow_succ, ← Nat.div_div_eq_div_mul]
      omega
  refine ⟨?_, ?_, ?_, h7, rfl⟩ <;> omega

/-! ### The cache gate -/

/-- The gate hits and does nothing, or programs the multisynth and the control byte and updates the
cache. -/
theorem cacheGate_cases {d r : Nat} (hd : 6 ≤ d) (hd' : d ≤ 900) (he : d % 2 = 0) (hr : r ≤ 7)
    (k : Channel) (immediate : Bool) (s : State) :
    ((s.div.get k).toNat = d ∧ (s.rsh.get k).toNat = r ∧ cacheGate k d r immediate s = .done () s) ∨
    (¬ ((s.div.get k).toNat = d ∧ (s.rsh.get k).toNat = r) ∧
      cacheGate k d r immediate s = .done () (
        let u := enable k (burst (msBase k s) (pBlock (pWords d 0 1) (rCode r s)) s)
        let v := { u with div := u.div.set k (BitVec.ofNat 10 d), rsh := u.rsh.set k (BitVec.ofNat 3 r) }
        if immediate then strobe v else setOwed true v)) := by
  unfold cacheGate
  by_cases h : d ≠ (s.div.get k).toNat ∨ r ≠ (s.rsh.get k).toNat
  · refine .inr ⟨by omega, ?_⟩
    rw [if_pos h, encMsInt_done hd hd' he hr]
    rfl
  · exact .inl ⟨by omega, by omega, if_neg h⟩

/-! ### Channel 2 from a PLL-B frequency -/

/-- Channel 2 is disabled on a first quotient below 6; else the least shift is found, one above 7 raises
before any write, and the multisynth and the control byte are written. -/
theorem ch2Frac_cases {p f : Nat} (hp : p < 2 ^ 32) (hf : 1 ≤ f) (s : State) :
    (p / f < 6 ∧ ch2Frac p f s = .done () (setDiag .ch2 (disableChannel .ch2 s))) ∨
    (6 ≤ p / f ∧ ∃ r, (∀ i < r, 900 < p / (f * 2 ^ i)) ∧ p / (f * 2 ^ r) ≤ 900 ∧
      6 ≤ p / (f * 2 ^ r) ∧ p % (f * 2 ^ r) * 0xFFFFF / (f * 2 ^ r) < 0xFFFFF ∧
      ((7 < r ∧ ch2Frac p f s = .raised .rDivRange s) ∨
       (r ≤ 7 ∧ ch2Frac p f s = .done () (
          let num := p % (f * 2 ^ r) * 0xFFFFF / (f * 2 ^ r)
          let den := if num ≠ 0 then 0xFFFFF else 1
          let u := enable .ch2 (singles (msBase .ch2 s)
            (pBlock (pWords (p / (f * 2 ^ r)) num den) (rCode r s)) s)
          setOwed true { u with div := u.div.set .ch2 0 })))) := by
  obtain ⟨r, he, hlt, hle⟩ := doubleLoop_fuel hp hf
  by_cases h : p / f < 6
  · exact .inl ⟨h, if_pos h⟩
  have hsf : 0 < f * 2 ^ r := Nat.mul_pos hf (Nat.two_pow_pos r)
  have hd : 6 ≤ p / (f * 2 ^ r) := by
    cases r with
    | zero => simpa using h
    | succ r =>
      have := hlt r (by omega)
      rw [Nat.pow_succ, ← Nat.mul_assoc, ← Nat.div_div_eq_div_mul]
      omega
  have hnum : p % (f * 2 ^ r) * 0xFFFFF / (f * 2 ^ r) < 0xFFFFF := by
    rw [Nat.div_lt_iff_lt_mul hsf, Nat.mul_comm]
    exact Nat.mul_lt_mul_of_pos_left (Nat.mod_lt _ hsf) (by decide)
  refine .inr ⟨by omega, r, hlt, hle, hd, hnum, ?_⟩
  have hunf : ch2Frac p f s =
      (encMsFrac .ch2 (p / (f * 2 ^ r)) (p % (f * 2 ^ r) * 0xFFFFF / (f * 2 ^ r))
        (if p % (f * 2 ^ r) * 0xFFFFF / (f * 2 ^ r) ≠ 0 then 0xFFFFF else 1) r s).andThen
        fun _ s => .done () (setOwed true
          { enable .ch2 s with div := (enable .ch2 s).div.set .ch2 0 }) := by
    rw [ch2Frac, if_neg (show ¬ p / f < Config.divMin from h)]
    simp only [he, Config.denom]
  have hden : 1 ≤ (if p % (f * 2 ^ r) * 0xFFFFF / (f * 2 ^ r) ≠ 0 then 0xFFFFF else 1) ∧
      (if p % (f * 2 ^ r) * 0xFFFFF / (f * 2 ^ r) ≠ 0 then 0xFFFFF else 1) ≤ 0xFFFFF := by
    split <;> omega
  dsimp only at hunf ⊢
  generalize (if p % (f * 2 ^ r) * 0xFFFFF / (f * 2 ^ r) ≠ 0 then 0xFFFFF else 1) = den at hunf hden ⊢
  by_cases h7 : 7 < r
  · refine .inl ⟨h7, ?_⟩
    rcases encMsFrac_cases .ch2 (p / (f * 2 ^ r)) (p % (f * 2 ^ r) * 0xFFFFF / (f * 2 ^ r)) den r s with
      c | c | c | c | c
    · omega
    · omega
    · omega
    · rw [hunf, c.2.2.2.2.2.2]; rfl
    · omega
  · refine .inr ⟨by omega, ?_⟩
    rw [hunf, encMsFrac_done hd hle (by omega) hden.1 hden.2 (by omega), andThen_done]

end Sys2Proof.Machine
end

