-- ==== Sys2Proof/Laws/Footprint.lean ====
section
/-! SUPPORT. Which register blocks each operation writes, and that every other register and cache keeps
its value, up to the PLL-B group of SET_FREQ. -/

namespace Sys2Proof

/-! ### The blocks of a well-formed register map -/

/-- A block of registers of 20_memory.md R66. -/
inductive Block where
  | ctrl (k : Channel)
  | pll (p : Pll)
  | ms (k : Channel)
  | pllReset
deriving DecidableEq, Repr

namespace Block

/-- The place of a block in `RegMap.blocks`. -/
def index : Block → Nat
  | .ctrl .ch0 => 0
  | .ctrl .ch1 => 1
  | .ctrl .ch2 => 2
  | .pll .pllA => 3
  | .pll .pllB => 4
  | .ms .ch0 => 5
  | .ms .ch1 => 6
  | .ms .ch2 => 7
  | .pllReset => 8

/-- The first register of a block. -/
def base (m : RegMap) : Block → Byte
  | .ctrl k => m.ctrl.get k
  | .pll p => m.pllBase.get p
  | .ms k => m.msBase.get k
  | .pllReset => m.pllReset

/-- How many registers a block takes. -/
def size : Block → Nat
  | .ctrl _ => 1
  | .pll _ => 8
  | .ms _ => 8
  | .pllReset => 1

/-- A register number lies in a block. -/
def Has (m : RegMap) (b : Block) (a : Nat) : Prop :=
  (b.base m).toNat ≤ a ∧ a < (b.base m).toNat + b.size

theorem getElem?_blocks (m : RegMap) (b : Block) :
    m.blocks[b.index]? = some ((b.base m).toNat, b.size) := by
  rcases b with k | p | k | _
  · cases k <;> rfl
  · cases p <;> rfl
  · cases k <;> rfl
  · rfl

theorem index_ne {a b : Block} (h : a ≠ b) : a.index ≠ b.index := by
  rcases a with k | k | k | _ <;> rcases b with j | j | j | _ <;> (try cases k) <;> (try cases j) <;>
    first
    | decide
    | exact absurd rfl h

/-- Different blocks of a well-formed map are apart. -/
theorem apart {m : RegMap} (h : m.wf = true) {a b : Block} (hab : a ≠ b) :
    (a.base m).toNat + a.size ≤ (b.base m).toNat ∨ (b.base m).toNat + b.size ≤ (a.base m).toNat := by
  rw [RegMap.wf, Bool.and_eq_true] at h
  have hp := List.pairwise_iff_getElem.1 (of_decide_eq_true h.1)
  obtain ⟨hi, ei⟩ := List.getElem?_eq_some_iff.1 (a.getElem?_blocks m)
  obtain ⟨hj, ej⟩ := List.getElem?_eq_some_iff.1 (b.getElem?_blocks m)
  rcases Nat.lt_or_gt_of_ne (index_ne hab) with hij | hij
  · simpa only [ei, ej] using hp _ _ hi hj hij
  · simpa only [ei, ej] using (hp _ _ hj hi hij).symm

/-- A block of a well-formed map does not pass register 255. -/
theorem fits {m : RegMap} (h : m.wf = true) (b : Block) : (b.base m).toNat + b.size ≤ 256 := by
  rw [RegMap.wf, Bool.and_eq_true] at h
  simpa using List.all_eq_true.1 h.2 _ (List.mem_of_getElem? (b.getElem?_blocks m))

end Block

namespace Machine

/-- A transaction writes inside one block. -/
def Transaction.InBlock (m : RegMap) (b : Block) (t : Transaction) : Prop :=
  (∃ i v, i < b.size ∧ t = .single (b.base m + BitVec.ofNat 8 i) v) ∨
  (∃ vs, vs.length = b.size ∧ t = .burst (b.base m) vs)

/-- A transaction leaves every other block of the image alone. -/
theorem read_apply_other {m : RegMap} (hw : m.wf = true) {b c : Block} (hbc : c ≠ b)
    {t : Transaction} (ht : t.InBlock m b) (im : Image) {a : Nat} (ha : c.Has m a) :
    (im.apply t).read a = im.read a := by
  have h1 := Block.apart hw hbc
  have h2 := Block.fits hw b
  unfold Block.Has at ha
  rcases ht with ⟨i, v, hi, rfl⟩ | ⟨vs, hl, rfl⟩
  · refine Image.read_write_other _ _ ?_
    rw [BitVec.toNat_add, BitVec.toNat_ofNat]
    omega
  · refine Image.read_writeAll_other _ _ _ fun i hi => ?_
    rw [BitVec.toNat_add, BitVec.toNat_ofNat]
    omega

theorem readBlock_congr {s s' : State} {reg : Byte} (hr : reg.toNat + 8 ≤ 256)
    (h : ∀ a, reg.toNat ≤ a → a < reg.toNat + 8 → s'.readReg a = s.readReg a) :
    s'.readBlock reg = s.readBlock reg := by
  unfold State.readBlock
  apply List.map_congr_left
  intro i hi
  rw [List.mem_range] at hi
  have : (reg + BitVec.ofNat 8 i).toNat = reg.toNat + i := by
    rw [BitVec.toNat_add, BitVec.toNat_ofNat]
    omega
  rw [this]
  exact h _ (by omega) (by omega)

/-! ### Footprints -/

/-- The blocks that work on the channels of `K` may write. -/
def Block.Of (K : Channel → Prop) : Block → Prop
  | .ctrl k => K k
  | .ms k => K k
  | .pll p => ∃ k, K k ∧ k.pll = p
  | .pllReset => True

/-- One channel. -/
def Only (k j : Channel) : Prop := j = k

/-- The channels of PLL B. -/
def Group (k : Channel) : Prop := k ≠ .ch0

theorem only_ch1_group {k : Channel} (h : Only .ch1 k) : Group k := by
  rw [show k = _ from h]; simp [Group]

theorem only_ch2_group {k : Channel} (h : Only .ch2 k) : Group k := by
  rw [show k = _ from h]; simp [Group]

/-- Work on the channels of `K`: it writes their blocks only, and keeps the caches of the others. -/
structure Footprint (K : Channel → Prop) (s s' : State) : Prop where
  pwr : s'.pwr = s.pwr
  params : s'.params = s.params
  log : ∃ ts, s'.log = s.log ++ ts ∧ ∀ t ∈ ts, ∃ b, Block.Of K b ∧ t.InBlock s.params.regMap b
  cache : ∀ k, ¬ K k → s'.div.get k = s.div.get k ∧ s'.rsh.get k = s.rsh.get k
  pllb : ¬ K .ch1 → s'.pllb = s.pllb

namespace Footprint

variable {K : Channel → Prop}

theorem of_eq {s s' : State} (h1 : s'.pwr = s.pwr) (h2 : s'.params = s.params) (h3 : s'.log = s.log)
    (h4 : s'.div = s.div) (h5 : s'.rsh = s.rsh) (h6 : s'.pllb = s.pllb) : Footprint K s s' :=
  ⟨h1, h2, ⟨[], by simp [h3], by simp⟩, fun k _ => by rw [h4, h5]; exact ⟨rfl, rfl⟩, fun _ => h6⟩

theorem refl (s : State) : Footprint K s s := of_eq rfl rfl rfl rfl rfl rfl

theorem trans {a b c : State} (h : Footprint K a b) (g : Footprint K b c) : Footprint K a c := by
  obtain ⟨ts, h1, h2⟩ := h.log
  obtain ⟨us, g1, g2⟩ := g.log
  refine ⟨g.pwr.trans h.pwr, g.params.trans h.params,
    ⟨ts ++ us, by rw [g1, h1, List.append_assoc], fun t ht => ?_⟩, fun k hk => ?_,
    fun hk => (g.pllb hk).trans (h.pllb hk)⟩
  · rcases List.mem_append.1 ht with ht | ht
    · exact h2 t ht
    · rw [h.params] at g2
      exact g2 t ht
  · exact ⟨(g.cache k hk).1.trans (h.cache k hk).1, (g.cache k hk).2.trans (h.cache k hk).2⟩

theorem mono {K' : Channel → Prop} {a b : State} (h : Footprint K a b) (hk : ∀ k, K k → K' k) :
    Footprint K' a b := by
  refine ⟨h.pwr, h.params, ?_, fun k hn => h.cache k fun hh => hn (hk k hh),
    fun hn => h.pllb fun hh => hn (hk _ hh)⟩
  obtain ⟨ts, h1, h2⟩ := h.log
  refine ⟨ts, h1, fun t ht => ?_⟩
  obtain ⟨b, hb, hi⟩ := h2 t ht
  refine ⟨b, ?_, hi⟩
  rcases b with k | p | k | _
  · exact hk _ hb
  · obtain ⟨k, a, c⟩ := hb
    exact ⟨k, hk _ a, c⟩
  · exact hk _ hb
  · trivial

theorem of_emit {t : Transaction} {s : State} (b : Block) (hb : Block.Of K b)
    (h : t.InBlock s.params.regMap b) : Footprint K s (emit t s) :=
  ⟨rfl, rfl, ⟨[t], rfl, by simpa using ⟨b, hb, h⟩⟩, fun _ _ => ⟨rfl, rfl⟩, fun _ => rfl⟩

theorem of_disableChannel {k : Channel} (hk : K k) (s : State) :
    Footprint K s (disableChannel k s) := by
  refine ⟨rfl, rfl, ⟨[_], rfl, ?_⟩, fun j hj => ?_, fun _ => rfl⟩
  · simp only [List.mem_singleton, forall_eq]
    exact ⟨.ctrl k, hk, .inl ⟨0, 0x80, Nat.one_pos, by simp [Block.base, ctrlReg, Config.ctrlPdn]⟩⟩
  · have : j ≠ k := fun h => hj (h ▸ hk)
    simp [this]

theorem of_cache {k : Channel} (hk : K k) (s : State) (d : BitVec 10) (r : BitVec 3) :
    Footprint K s { s with div := s.div.set k d, rsh := s.rsh.set k r } := by
  refine ⟨rfl, rfl, ⟨[], by simp, by simp⟩, fun j hj => ?_, fun _ => rfl⟩
  have : j ≠ k := fun h => hj (h ▸ hk)
  simp [this]

theorem of_div {k : Channel} (hk : K k) (s : State) (d : BitVec 10) :
    Footprint K s { s with div := s.div.set k d } := by
  refine ⟨rfl, rfl, ⟨[], by simp, by simp⟩, fun j hj => ?_, fun _ => rfl⟩
  have : j ≠ k := fun h => hj (h ▸ hk)
  simp [this]

theorem of_strobe (s : State) : Footprint K s (strobe s) :=
  of_emit .pllReset trivial (.inl ⟨0, 0xA0, Nat.one_pos, by simp [Block.base, Config.resetVal]⟩)

theorem of_enable {k : Channel} (hk : K k) (s : State) : Footprint K s (enable k s) :=
  of_emit (.ctrl k) hk (.inl ⟨0, enableByte k s, Nat.one_pos, by simp [Block.base, ctrlReg]⟩)

theorem of_msBurst {k : Channel} (hk : K k) (vs : List Byte) (s : State) (h : vs.length = 8) :
    Footprint K s (burst (msBase k s) vs s) := of_emit (.ms k) hk (.inr ⟨vs, h, rfl⟩)

theorem of_pllBurst {k : Channel} (hk : K k) (vs : List Byte) (s : State) (h : vs.length = 8) :
    Footprint K s (burst (pllBase k.pll s) vs s) :=
  of_emit (.pll k.pll) ⟨k, hk, rfl⟩ (.inr ⟨vs, h, rfl⟩)

theorem of_singles {k : Channel} (hk : K k) (vs : List Byte) (s : State) (h : vs.length = 8) :
    Footprint K s (singles (msBase k s) vs s) := by
  rw [singles_eq]
  refine ⟨rfl, rfl, ⟨_, rfl, fun t ht => ?_⟩, fun _ _ => ⟨rfl, rfl⟩, fun _ => rfl⟩
  obtain ⟨i, v, hi, rfl⟩ := mem_singleList ht
  exact ⟨.ms k, hk, .inl ⟨i, v, by rw [h] at hi; exact hi, rfl⟩⟩

/-- A register outside the footprint reads as before. -/
theorem readReg_eq {s s' : State} (h : Footprint K s s') (hw : s.params.regMap.wf = true) {c : Block}
    (hc : ¬ Block.Of K c) {a : Nat} (ha : c.Has s.params.regMap a) : s'.readReg a = s.readReg a := by
  obtain ⟨ts, h1, h2⟩ := h.log
  unfold State.readReg
  rw [h1, imageOf_append]
  generalize imageOf s.log = im
  clear h1
  induction ts generalizing im with
  | nil => rfl
  | cons t ts ih =>
    rw [List.foldl_cons, ih fun t ht => h2 t (List.mem_cons_of_mem _ ht)]
    obtain ⟨b, hb, hi⟩ := h2 t List.mem_cons_self
    exact read_apply_other hw (by rintro rfl; exact hc hb) hi im ha

end Footprint

/-! ### The controller's parts -/

/-- One channel's program stays within its channel. -/
theorem programChannel_footprint (k : Channel) (f : Nat) (immediate : Bool) (s : State) :
    (programChannel k f immediate s).Spec (fun _ s' => Footprint (Only k) s s')
      (fun _ s' => s' = s) := by
  have hk : Only k k := rfl
  unfold programChannel
  cases hs : search f with
  | underflow =>
    exact (Footprint.of_disableChannel hk s).trans (Footprint.of_eq rfl rfl rfl rfl rfl rfl)
  | rTooLarge => exact rfl
  | ok d r pll =>
    obtain ⟨g1, g2, g3, g4, -⟩ := search_ok hs
    refine guardFault_spec (fun _ => rfl) fun _ => ?_
    simp only []
    generalize pllParams s.xtal.toNat pll = mn
    rcases encPll_cases k.pll mn.1 mn.2 Config.denom s with c | c | c | c
    · rw [c.2]; rfl
    · rw [c.2.2.2]; rfl
    · rw [c.2.2.2.2]; rfl
    · rw [c.2.2.2.2.2, andThen_done]
      have f1 : Footprint (Only k) s
          (burst (pllBase k.pll s) (pBlock (pWords mn.1 mn.2 Config.denom) 0) s) :=
        Footprint.of_pllBurst hk _ s rfl
      generalize burst (pllBase k.pll s) (pBlock (pWords mn.1 mn.2 Config.denom) 0) s = u at f1
      rcases cacheGate_cases g1 g2 g3 g4 k immediate u with ⟨_, _, c⟩ | ⟨_, c⟩
      · rw [c]; exact f1
      · rw [c, andThen_done]
        have key := ((Footprint.of_msBurst hk (pBlock (pWords d 0 1) (rCode r u)) u rfl).trans
          (Footprint.of_enable hk _)).trans
          (Footprint.of_cache hk _ (BitVec.ofNat 10 d) (BitVec.ofNat 3 r))
        refine f1.trans ?_
        cases immediate
        · exact key.trans (Footprint.of_eq rfl rfl rfl rfl rfl rfl)
        · exact key.trans (Footprint.of_strobe _)

/-- Channel 2's derivation stays within channel 2, whose cached divider it clears. -/
theorem ch2Frac_footprint (p f : Nat) (s : State) (hp : p < 2 ^ 32) (hf : 1 ≤ f) :
    (ch2Frac p f s).Spec (fun _ s' => Footprint (Only .ch2) s s' ∧ s'.div.get .ch2 = 0)
      (fun _ s' => s' = s) := by
  have hk : Only .ch2 .ch2 := rfl
  rcases ch2Frac_cases hp hf s with ⟨_, e⟩ | ⟨_, r, _, _, _, _, ⟨_, e⟩ | ⟨_, e⟩⟩
  · rw [e]
    exact ⟨(Footprint.of_disableChannel hk s).trans (Footprint.of_eq rfl rfl rfl rfl rfl rfl), rfl⟩
  · rw [e]; rfl
  · rw [e]
    dsimp only
    have hl := length_pBlock (pWords (p / (f * 2 ^ r)) (p % (f * 2 ^ r) * 0xFFFFF / (f * 2 ^ r))
      (if p % (f * 2 ^ r) * 0xFFFFF / (f * 2 ^ r) ≠ 0 then 0xFFFFF else 1)) (rCode r s)
    generalize pBlock (pWords (p / (f * 2 ^ r)) (p % (f * 2 ^ r) * 0xFFFFF / (f * 2 ^ r))
      (if p % (f * 2 ^ r) * 0xFFFFF / (f * 2 ^ r) ≠ 0 then 0xFFFFF else 1)) (rCode r s) = vs at hl ⊢
    refine ⟨?_, rfl⟩
    exact (Footprint.of_singles hk vs s hl).trans ((Footprint.of_enable hk _).trans
      ((Footprint.of_div hk _ 0).trans (Footprint.of_eq rfl rfl rfl rfl rfl rfl)))

/-- Channel 0's part of SET_FREQ stays within channel 0, and does nothing when it is unchanged. -/
theorem channel0_footprint (c0 : Bool) (f0 : Nat) (s : State) :
    (channel0 c0 f0 s).Spec (fun _ s' => Footprint (Only .ch0) s s' ∧ (c0 = false → s' = s))
      (fun _ s' => s' = s) := by
  cases c0
  · exact ⟨Footprint.refl s, fun _ => rfl⟩
  · by_cases h : f0 = 0
    · subst h
      exact ⟨Footprint.of_disableChannel (show Only .ch0 .ch0 from rfl) s, by simp⟩
    · simp only [channel0, h, if_true, if_false]
      refine Ran.Spec.andThen (programChannel_footprint .ch0 f0 false s) ?_
      intro _ s' h1
      exact ⟨h1, by simp⟩

theorem channel2FromPllb_footprint (f2 : Nat) (s : State) :
    (channel2FromPllb f2 s).Spec
      (fun _ s' => Footprint (Only .ch2) s s' ∧ s'.div.get .ch2 = 0) (fun _ s' => s' = s) := by
  unfold channel2FromPllb
  split
  · exact ⟨Footprint.of_disableChannel (show Only .ch2 .ch2 from rfl) s, rfl⟩
  · refine Ran.Spec.andThen (ch2Frac_footprint _ f2 s s.pllb.isLt (by omega)) ?_
    intro _ s' h
    exact h

/-- The PLL-B group stays within channels 1 and 2, and does nothing when both are unchanged. -/
theorem pllBGroup_footprint (c1 c2 : Bool) (f1 f2 : Nat) (s : State) :
    (pllBGroup c1 c2 f1 f2 s).Spec
      (fun _ s' => Footprint Group s s' ∧ (c1 = false → c2 = false → s' = s))
      (fun _ s' => Footprint Group s s' ∧ (c1 = false → c2 = false → s' = s)) := by
  have d1 : Footprint (Only .ch1) s (disableChannel .ch1 s) :=
    Footprint.of_disableChannel (show Only .ch1 .ch1 from rfl) s
  unfold pllBGroup
  split
  swap
  · exact ⟨Footprint.refl s, fun _ _ => rfl⟩
  rename_i hc
  have hcc : c1 = false → c2 = false → ∀ s', s' = s := by
    rintro rfl rfl
    cases hc
  split
  · split
    · refine Ran.Spec.andThen ((programChannel_footprint .ch1 f1 false s).mono (fun _ _ h => h)
        fun _ s' h => ?_) ?_
      · rw [h]
        exact ⟨Footprint.refl s, fun _ _ => rfl⟩
      · intro res s' k1
        have k1' := k1.mono fun _ => only_ch1_group
        cases res with
        | none => exact ⟨k1', fun a b => hcc a b _⟩
        | some pll =>
          have q : Footprint Group s' { s' with pllb := BitVec.ofNat 32 pll } :=
            ⟨rfl, rfl, ⟨[], by simp, by simp⟩, fun _ _ => ⟨rfl, rfl⟩,
              fun h => absurd (by simp [Group]) h⟩
          refine (channel2FromPllb_footprint f2 _).mono (fun _ t j => ?_) fun _ t j => ?_
          · exact ⟨k1'.trans (q.trans (j.1.mono fun _ => only_ch2_group)), fun a b => hcc a b _⟩
          · subst j
            exact ⟨k1'.trans q, fun a b => hcc a b _⟩
    · refine (channel2FromPllb_footprint f2 _).mono (fun _ t j => ?_) fun _ t j => ?_
      · exact ⟨j.1.mono fun _ => only_ch2_group, fun a b => hcc a b _⟩
      · rw [j]
        exact ⟨Footprint.refl s, fun _ _ => rfl⟩
  split
  · refine Ran.Spec.andThen ((programChannel_footprint .ch2 f2 true (disableChannel .ch1 s)).mono
      (fun _ _ h => h) fun _ s' h => ?_) ?_
    · subst h
      exact ⟨d1.mono fun _ => only_ch1_group, fun a b => hcc a b _⟩
    · intro _ s' k1
      exact ⟨(d1.mono fun _ => only_ch1_group).trans (k1.mono fun _ => only_ch2_group),
        fun a b => hcc a b _⟩
  · have d2 : Footprint (Only .ch2) (disableChannel .ch1 s)
        (disableChannel .ch2 (disableChannel .ch1 s)) :=
      Footprint.of_disableChannel (show Only .ch2 .ch2 from rfl) _
    exact ⟨(d1.mono fun _ => only_ch1_group).trans (d2.mono fun _ => only_ch2_group),
      fun a b => hcc a b _⟩

end Machine

end Sys2Proof
end

