-- ==== Sys2Proof/Laws/Frame.lean ====
section
/-! SUPPORT. What every part of the controller leaves alone, and the forms of the transactions it emits:
one lemma for each operation, up to the body of SET_FREQ. -/

namespace Sys2Proof.Machine

/-- What no part of a channel's program touches, and what it keeps: it appends transactions of the legal
forms, and it keeps dividers legal. -/
structure Frame (s s' : State) : Prop where
  xtal : s'.xtal = s.xtal
  f : s'.f = s.f
  fv : s'.fv = s.fv
  pwr : s'.pwr = s.pwr
  flt : s'.flt = s.flt
  port : s'.port = s.port
  pc : s'.pc = s.pc
  params : s'.params = s.params
  log : ∃ ts, s'.log = s.log ++ ts ∧ ∀ t ∈ ts, TransactionLegal s.params.regMap t
  div : (∀ k, DivLegal (s.div.get k)) → ∀ k, DivLegal (s'.div.get k)

namespace Frame

theorem refl (s : State) : Frame s s :=
  ⟨rfl, rfl, rfl, rfl, rfl, rfl, rfl, rfl, ⟨[], by simp, by simp⟩, id⟩

theorem trans {a b c : State} (h : Frame a b) (g : Frame b c) : Frame a c := by
  obtain ⟨ts, h1, h2⟩ := h.log
  obtain ⟨us, g1, g2⟩ := g.log
  refine ⟨g.xtal.trans h.xtal, g.f.trans h.f, g.fv.trans h.fv, g.pwr.trans h.pwr, g.flt.trans h.flt,
    g.port.trans h.port, g.pc.trans h.pc, g.params.trans h.params,
    ⟨ts ++ us, by rw [g1, h1, List.append_assoc], fun t ht => ?_⟩, fun h' => g.div (h.div h')⟩
  rcases List.mem_append.1 ht with ht | ht
  · exact h2 t ht
  · rw [h.params] at g2
    exact g2 t ht

theorem of_emit {t : Transaction} {s : State} (h : TransactionLegal s.params.regMap t) :
    Frame s (emit t s) :=
  ⟨rfl, rfl, rfl, rfl, rfl, rfl, rfl, rfl, ⟨[t], rfl, by simpa using h⟩, id⟩

theorem of_disableChannel (k : Channel) (s : State) : Frame s (disableChannel k s) := by
  refine ⟨rfl, rfl, rfl, rfl, rfl, rfl, rfl, rfl, ⟨[_], rfl, ?_⟩, fun h j => ?_⟩
  · simp only [List.mem_singleton, forall_eq]
    exact .inl ⟨k, rfl⟩
  · simp only [disableChannel_div, PerChannel.get_set]
    split
    · exact .inl rfl
    · exact h j

theorem of_setDiag (k : Channel) (s : State) : Frame s (setDiag k s) :=
  ⟨rfl, rfl, rfl, rfl, rfl, rfl, rfl, rfl, ⟨[], by simp, by simp⟩, id⟩

theorem of_setOwed (v : Bool) (s : State) : Frame s (setOwed v s) :=
  ⟨rfl, rfl, rfl, rfl, rfl, rfl, rfl, rfl, ⟨[], by simp, by simp⟩, id⟩

theorem of_pllb (p : BitVec 32) (s : State) : Frame s { s with pllb := p } :=
  ⟨rfl, rfl, rfl, rfl, rfl, rfl, rfl, rfl, ⟨[], by simp, by simp⟩, id⟩

theorem of_cache (s : State) (k : Channel) (d : BitVec 10) (r : PerChannel (BitVec 3))
    (h : DivLegal d) : Frame s { s with div := s.div.set k d, rsh := r } := by
  refine ⟨rfl, rfl, rfl, rfl, rfl, rfl, rfl, rfl, ⟨[], by simp, by simp⟩, fun hh j => ?_⟩
  simp only [PerChannel.get_set]
  split
  · exact h
  · exact hh j

theorem of_strobe (s : State) : Frame s (strobe s) := of_emit (.inr (.inr (.inl rfl)))

theorem of_enable (k : Channel) (s : State) : Frame s (enable k s) := by
  refine of_emit (.inr (.inl ⟨k, (s.pwr.get k).toNat, (s.pwr.get k).isLt, ?_⟩))
  congr 1
  unfold enableByte
  generalize s.pwr.get k = p
  revert p
  cases k <;> decide

theorem of_pllBurst (p : Pll) (vs : List Byte) (s : State) (h : vs.length = 8) :
    Frame s (burst (pllBase p s) vs s) :=
  of_emit (.inr (.inr (.inr (.inl ⟨p, vs, h, rfl⟩))))

theorem of_msBurst (k : Channel) (vs : List Byte) (s : State) (h : vs.length = 8) :
    Frame s (burst (msBase k s) vs s) :=
  of_emit (.inr (.inr (.inr (.inr (.inl ⟨k, vs, h, rfl⟩)))))

theorem of_singles (k : Channel) (vs : List Byte) (s : State) (h : vs.length = 8) :
    Frame s (singles (msBase k s) vs s) := by
  rw [singles_eq]
  refine ⟨rfl, rfl, rfl, rfl, rfl, rfl, rfl, rfl, ⟨_, rfl, fun t ht => ?_⟩, id⟩
  obtain ⟨i, v, hi, rfl⟩ := mem_singleList ht
  exact .inr (.inr (.inr (.inr (.inr ⟨k, i, v, by omega, rfl⟩))))

end Frame

theorem divLegal_ofNat {d : Nat} (h1 : 6 ≤ d) (h2 : d ≤ 900) (h3 : d % 2 = 0) :
    DivLegal (BitVec.ofNat 10 d) := by
  right
  rw [BitVec.toNat_ofNat, Nat.mod_eq_of_lt (by omega)]
  exact ⟨h1, h2, h3⟩

/-- The cache gate completes for the result of a search. -/
theorem cacheGate_frame {d r : Nat} (h1 : 6 ≤ d) (h2 : d ≤ 900) (h3 : d % 2 = 0) (h4 : r ≤ 7)
    (k : Channel) (immediate : Bool) (s : State) :
    ∃ s', cacheGate k d r immediate s = .done () s' ∧ Frame s s' ∧ s'.pllb = s.pllb ∧
      s'.diag = s.diag := by
  rcases cacheGate_cases h1 h2 h3 h4 k immediate s with ⟨_, _, c⟩ | ⟨_, c⟩
  · exact ⟨s, c, Frame.refl s, rfl, rfl⟩
  · have h := ((Frame.of_msBurst k (pBlock (pWords d 0 1) (rCode r s)) s rfl).trans
      (Frame.of_enable k _)).trans
      (Frame.of_cache _ k (BitVec.ofNat 10 d) (s.rsh.set k (BitVec.ofNat 3 r)) (divLegal_ofNat h1 h2 h3))
    cases immediate
    · exact ⟨_, c, h.trans (Frame.of_setOwed true _), rfl, rfl⟩
    · exact ⟨_, c, h.trans (Frame.of_strobe _), rfl, rfl⟩

/-- The causes one channel's program, and with it SET_FREQ, can raise (43_controller.md R202). -/
def SetFreqCause (c : Cause) : Prop := c = .rDivRange ∨ c = .xtalUnset ∨ c = .pllMultRange

/-- One channel's program answers the PLL frequency of its search, or none after a disable. Every fault of
it leaves the state as it was; FRAC_NUM_RANGE could come only from a numerator above the largest. -/
theorem programChannel_frame (k : Channel) (f : Nat) (immediate : Bool) (s : State) :
    (programChannel k f immediate s).Spec
      (fun res s' => Frame s s' ∧ s'.pllb = s.pllb ∧
        (∀ pll, res = some pll → ∃ d r, search f = .ok d r pll) ∧
        (res = none → search f = .underflow ∧ s' = setDiag k (disableChannel k s)))
      (fun c s' => s' = s ∧ (SetFreqCause c ∨
        (c = .fracNumRange ∧ ∃ d r pll, search f = .ok d r pll ∧ s.xtal ≠ 0 ∧
          (15 ≤ (pllParams s.xtal.toNat pll).1 ∧ (pllParams s.xtal.toNat pll).1 ≤ 90) ∧
          0xFFFFF < (pllParams s.xtal.toNat pll).2))) := by
  unfold programChannel
  cases hs : search f with
  | underflow =>
    exact ⟨(Frame.of_disableChannel k s).trans (Frame.of_setDiag k _), rfl, by simp, by simp⟩
  | rTooLarge => exact ⟨rfl, .inl (.inl rfl)⟩
  | ok d r pll =>
    obtain ⟨g1, g2, g3, g4, -⟩ := search_ok hs
    refine guardFault_spec (fun _ => ⟨rfl, .inl (.inr (.inl rfl))⟩) fun hx => ?_
    simp only []
    generalize hm : pllParams s.xtal.toNat pll = mn
    rcases encPll_cases k.pll mn.1 mn.2 Config.denom s with c | c | c | c
    · rw [c.2]; exact ⟨rfl, .inl (.inr (.inr rfl))⟩
    · rw [c.2.2.2]; exact ⟨rfl, .inr ⟨rfl, d, r, pll, rfl, hx, by rw [hm]; exact ⟨c.1, c.2.1⟩, by rw [hm]; exact c.2.2.1⟩⟩
    · simp [Config.denom] at c
    · rw [c.2.2.2.2.2, andThen_done]
      obtain ⟨s', e1, e2, e3, -⟩ := cacheGate_frame g1 g2 g3 g4 k immediate
        (burst (pllBase k.pll s) (pBlock (pWords mn.1 mn.2 Config.denom) 0) s)
      rw [e1]
      exact ⟨(Frame.of_pllBurst _ _ _ rfl).trans e2, e3, fun p h => by cases h; exact ⟨d, r, rfl⟩,
        by simp⟩

/-- Channel 2's derivation ends with the cached divider cleared, or raises R_DIV_RANGE before any
write. -/
theorem ch2Frac_frame (p f : Nat) (s : State) (hp : p < 2 ^ 32) (hf : 1 ≤ f) :
    (ch2Frac p f s).Spec
      (fun _ s' => Frame s s' ∧ s'.pllb = s.pllb ∧ s'.rsh = s.rsh ∧ s'.div = s.div.set .ch2 0)
      (fun c s' => s' = s ∧ c = .rDivRange) := by
  rcases ch2Frac_cases hp hf s with ⟨_, e⟩ | ⟨_, r, _, _, _, _, ⟨_, e⟩ | ⟨_, e⟩⟩
  · rw [e]
    exact ⟨(Frame.of_disableChannel _ _).trans (Frame.of_setDiag _ _), rfl, rfl, rfl⟩
  · rw [e]; exact ⟨rfl, rfl⟩
  · rw [e]
    refine ⟨?_, by simp [singles_eq], by simp [singles_eq], by simp [singles_eq]⟩
    exact (Frame.of_singles .ch2 _ s rfl).trans ((Frame.of_enable .ch2 _).trans
      ((Frame.of_cache _ .ch2 0 _ (.inl rfl)).trans (Frame.of_setOwed _ _)))

/-- The channel-2 half of branches A and B. -/
theorem channel2FromPllb_frame (f2 : Nat) (s : State) :
    (channel2FromPllb f2 s).Spec
      (fun early s' => Frame s s' ∧ s'.pllb = s.pllb ∧ s'.rsh = s.rsh ∧ s'.div = s.div.set .ch2 0 ∧
        early = false)
      (fun c s' => s' = s ∧ c = .rDivRange) := by
  unfold channel2FromPllb
  split
  · exact ⟨Frame.of_disableChannel _ _, rfl, rfl, rfl, rfl⟩
  · refine Ran.Spec.andThen (ch2Frac_frame _ f2 s s.pllb.isLt (by omega)) ?_
    rintro _ s' ⟨h1, h2, h3, h4⟩
    exact ⟨h1, h2, h3, h4, rfl⟩

theorem batchedStrobe_frame (early : Bool) (s : State) :
    Frame s (batchedStrobe early s) ∧ (batchedStrobe early s).pllb = s.pllb := by
  unfold batchedStrobe
  split
  · exact ⟨Frame.of_strobe s, rfl⟩
  · exact ⟨Frame.refl s, rfl⟩

end Sys2Proof.Machine
end

