-- ==== Sys2Proof/Laws/PerInstr.lean ====
section
/-! SUPPORT. The family EncodeMatchesRow: a command's word matches its row of the opcode table
(30_encoding.md R93). -/

namespace Sys2Proof.Laws.EncodeMatchesRow

def Statement (i : Instr) : Prop := encode i &&& i.opcode.mask = i.opcode.matchWord

theorem init (p0 p1 p2 : BitVec 2) : Statement (.init p0 p1 p2) := by
  simp only [Statement, encode, operandBits, Instr.opcode, or_and_mask]
  rw [place_and_mask 0 p0 _ (by decide), place_and_mask 2 p1 _ (by decide),
    place_and_mask 4 p2 _ (by decide)]
  decide

theorem setXtal (x : BitVec 32) (rst : Bool) : Statement (.setXtal x rst) := by
  simp only [Statement, encode, operandBits, Instr.opcode, or_and_mask]
  rw [place_and_mask 0 x _ (by decide), place_and_mask 32 (BitVec.ofBool rst) _ (by decide)]
  decide

theorem setFreq (f0 f1 f2 : BitVec 32) : Statement (.setFreq f0 f1 f2) := by
  simp only [Statement, encode, operandBits, Instr.opcode, or_and_mask]
  rw [place_and_mask 0 f0 _ (by decide), place_and_mask 32 f1 _ (by decide),
    place_and_mask 64 f2 _ (by decide)]
  decide

theorem encPll (sel : BitVec 8) (a b c : BitVec 32) : Statement (.encPll sel a b c) := by
  simp only [Statement, encode, operandBits, Instr.opcode, or_and_mask]
  rw [place_and_mask 0 sel _ (by decide), place_and_mask 8 a _ (by decide),
    place_and_mask 40 b _ (by decide), place_and_mask 72 c _ (by decide)]
  decide

theorem encMsInt (sel : BitVec 8) (d : BitVec 32) (r : BitVec 8) :
    Statement (.encMsInt sel d r) := by
  simp only [Statement, encode, operandBits, Instr.opcode, or_and_mask]
  rw [place_and_mask 0 sel _ (by decide), place_and_mask 8 d _ (by decide),
    place_and_mask 40 r _ (by decide)]
  decide

theorem encMsFrac (sel : BitVec 8) (d b c : BitVec 32) (r : BitVec 8) :
    Statement (.encMsFrac sel d b c r) := by
  simp only [Statement, encode, operandBits, Instr.opcode, or_and_mask]
  rw [place_and_mask 0 sel _ (by decide), place_and_mask 8 d _ (by decide),
    place_and_mask 40 b _ (by decide), place_and_mask 72 c _ (by decide),
    place_and_mask 104 r _ (by decide)]
  decide

theorem disable (ch : BitVec 8) : Statement (.disable ch) := by
  simp only [Statement, encode, operandBits, Instr.opcode, or_and_mask]
  rw [place_and_mask 0 ch _ (by decide)]
  decide

end Sys2Proof.Laws.EncodeMatchesRow
end

