-- ==== Sys2Proof/Tests/Slice0.lean ====
section
/-! SUPPORT. Tests, with expected results from 30_encoding.md and 95_test_vectors.md, and for each
obligation with hypotheses a witness that meets them. -/

open Sys2Proof Sys2Proof.Machine Sys2Proof.Claims

namespace Sys2Proof.Tests

/-! ### Helpers -/

/-- `Boot(x, p)` of 95_test_vectors.md, with its log cleared, and with a value for the open parameter. -/
def boot (x : BitVec 32) (early : Bool) : State :=
  { State.reset with
    xtal := x, fv := .all false, pwr := .all 3
    params := { Params.defaults with earlyReturnSkipsReset := early } }

/-- Boot after a SET_FREQ of 100 MHz, 0, 0: channel 0 programmed, nothing changed since. -/
def running : State :=
  { boot 250000000 false with f := ⟨100000000, 0, 0⟩, fv := .all true, div := ⟨8, 0, 0⟩ }

/-- The state a step answered. -/
def next? (o : Host.Outcome State Fault Refusal) : Option State :=
  match o with
  | .next s => some s
  | _ => none

/-- The log a step left. -/
def log? (o : Host.Outcome State Fault Refusal) : Option (List Transaction) := (next? o).map (·.log)

/-- The fault register a step left. -/
def flt? (o : Host.Outcome State Fault Refusal) : Option FaultReg := (next? o).map (·.flt)

/-! ### Decoding: words written out from 30_encoding.md R91 -/

/-- OPC 0x01, P2 = 2, P1 = 1, P0 = 0 in bits 5..0. -/
theorem test_decode_init : decode 0x01000000000000000000000000000024 = .instr (.init 0 1 2) := by decide

/-- OPC 0x02, RST in bit 32, X in bits 31..0 (95_test_vectors.md §2.8). -/
theorem test_decode_set_xtal :
    decode 0x0200000000000000000000010EE6B280 = .instr (.setXtal 250000000 true) := by decide

/-- OPC 0x03, F2, F1, F0 from bit 95 down. -/
theorem test_decode_set_freq :
    decode 0x03000000006ACFC000D59F8000000005 = .instr (.setFreq 5 14000000 7000000) := by decide

/-- OPC 0x10, C in bits 103..72, B in 71..40, A in 39..8, SEL in 7..0. -/
theorem test_decode_enc_pll :
    decode 0x100000000FFFFF000000050000002001 = .instr (.encPll 1 32 5 1048575) := by decide

/-- OPC 0x11, R in bits 47..40, D in 39..8, SEL in 7..0. -/
theorem test_decode_enc_ms_int :
    decode 0x11000000000000000000070000038401 = .instr (.encMsInt 1 900 7) := by decide

/-- OPC 0x12, R in bits 111..104, C in 103..72, B in 71..40, D in 39..8, SEL in 7..0. -/
theorem test_decode_enc_ms_frac :
    decode 0x12000300000007000000050000006402 = .instr (.encMsFrac 2 100 5 7 3) := by decide

/-- OPC 0x13, CH in bits 7..0. -/
theorem test_decode_disable : decode 0x13000000000000000000000000000001 = .instr (.disable 1) := by decide

/-- Words of 95_test_vectors.md §2.8 with a reserved bit set, one for each command, and an all-ones word. -/
theorem test_decode_reserved_bits :
    decode 0x01000000000000000000000000000040 = .rejected .reservedBits ∧
    decode 0x0200000000000000000000020EE6B280 = .rejected .reservedBits ∧
    decode 0x03000001000000000000000000000000 = .rejected .reservedBits ∧
    decode 0x10000100000000000000000000000000 = .rejected .reservedBits ∧
    decode 0x11000000000000000001000000000000 = .rejected .reservedBits ∧
    decode 0x12010000000000000000000000000000 = .rejected .reservedBits ∧
    decode 0x13000000000000000000000000000100 = .rejected .reservedBits ∧
    decode 0xFFFFFFFFFFFFFFFFFFFFFFFFFFFFFFFF = .rejected .unknownOpcode := by decide

theorem test_decode_table_word :
    decodeTableWord 128 0x13000000000000000000000000000001 = some (.disable 1) ∧
    decodeTableWord 128 0x04000000000000000000000000000000 = none := by decide

/-! ### WellFormed: an ill-formed term for each check -/

theorem smoke_set_xtal_zero : (Instr.setXtal 0 false).wellFormed = false := by decide
theorem smoke_set_freq_ch0 : (Instr.setFreq 7803 0 0).wellFormed = false := by decide
theorem smoke_set_freq_ch1 : (Instr.setFreq 0 7803 0).wellFormed = false := by decide
theorem smoke_set_freq_ch2 : (Instr.setFreq 0 0 1).wellFormed = false := by decide
theorem smoke_enc_pll_sel : (Instr.encPll 2 32 0 1).wellFormed = false := by decide
theorem smoke_enc_pll_low : (Instr.encPll 0 14 0 1).wellFormed = false := by decide
theorem smoke_enc_pll_high : (Instr.encPll 0 91 0 1).wellFormed = false := by decide
theorem smoke_enc_pll_num : (Instr.encPll 0 32 1048576 1048575).wellFormed = false := by decide
theorem smoke_enc_pll_den_zero : (Instr.encPll 0 32 0 0).wellFormed = false := by decide
theorem smoke_enc_pll_den_high : (Instr.encPll 0 32 0 1048576).wellFormed = false := by decide
theorem smoke_enc_ms_int_sel : (Instr.encMsInt 3 8 0).wellFormed = false := by decide
theorem smoke_enc_ms_int_low : (Instr.encMsInt 0 4 0).wellFormed = false := by decide
theorem smoke_enc_ms_int_high : (Instr.encMsInt 0 902 0).wellFormed = false := by decide
theorem smoke_enc_ms_int_odd : (Instr.encMsInt 0 7 0).wellFormed = false := by decide
theorem smoke_enc_ms_int_r : (Instr.encMsInt 0 8 8).wellFormed = false := by decide
theorem smoke_enc_ms_frac_sel : (Instr.encMsFrac 3 8 0 1 0).wellFormed = false := by decide
theorem smoke_enc_ms_frac_low : (Instr.encMsFrac 0 5 0 1 0).wellFormed = false := by decide
theorem smoke_enc_ms_frac_high : (Instr.encMsFrac 0 901 0 1 0).wellFormed = false := by decide
theorem smoke_enc_ms_frac_num : (Instr.encMsFrac 0 8 1048576 1 0).wellFormed = false := by decide
theorem smoke_enc_ms_frac_den : (Instr.encMsFrac 0 8 0 0 0).wellFormed = false := by decide
theorem smoke_enc_ms_frac_r : (Instr.encMsFrac 0 8 0 1 8).wellFormed = false := by decide
theorem smoke_disable : (Instr.disable 3).wellFormed = false := by decide

/-- Each check lets its boundary value pass. -/
theorem smoke_boundaries_pass :
    (Instr.setFreq 7804 0 4294967295).wellFormed ∧ (Instr.encPll 1 15 1048575 1).wellFormed ∧
    (Instr.encPll 0 90 0 1048575).wellFormed ∧ (Instr.encMsInt 2 6 7).wellFormed ∧
    (Instr.encMsInt 0 900 0).wellFormed ∧ (Instr.encMsFrac 2 7 1048575 1 7).wellFormed ∧
    (Instr.encMsFrac 0 900 0 1048575 0).wellFormed ∧ (Instr.disable 2).wellFormed := by decide

theorem smoke_source_init :
    (SourceCmd.init 4 0 0).wellFormed = false ∧ (SourceCmd.init 0 4 0).wellFormed = false ∧
    (SourceCmd.init 0 0 4).wellFormed = false := by decide
theorem smoke_source_set_xtal :
    (SourceCmd.setXtal 4294967296 false).wellFormed = false ∧
    (SourceCmd.setXtalReset 4294967296).wellFormed = false := by decide
theorem smoke_source_set_freq :
    (SourceCmd.setFreq 4294967296 0 0).wellFormed = false ∧
    (SourceCmd.setFreq 0 4294967296 0).wellFormed = false ∧
    (SourceCmd.setFreq 0 0 4294967296).wellFormed = false := by decide
theorem smoke_source_enc_pll :
    (SourceCmd.encPll .pllA 4294967296 0 0).wellFormed = false ∧
    (SourceCmd.encPll .pllB 0 4294967296 0).wellFormed = false ∧
    (SourceCmd.encPll .pllA 0 0 4294967296).wellFormed = false := by decide
theorem smoke_source_enc_ms_int :
    (SourceCmd.encMsInt 256 0 0).wellFormed = false ∧
    (SourceCmd.encMsInt 0 4294967296 0).wellFormed = false ∧
    (SourceCmd.encMsInt 0 0 256).wellFormed = false := by decide
theorem smoke_source_enc_ms_frac :
    (SourceCmd.encMsFrac 256 0 0 0 0).wellFormed = false ∧
    (SourceCmd.encMsFrac 0 4294967296 0 0 0).wellFormed = false ∧
    (SourceCmd.encMsFrac 0 0 4294967296 0 0).wellFormed = false ∧
    (SourceCmd.encMsFrac 0 0 0 4294967296 0).wellFormed = false ∧
    (SourceCmd.encMsFrac 0 0 0 0 256).wellFormed = false := by decide
theorem smoke_source_disable : (SourceCmd.disable 256).wellFormed = false := by decide

/-- A map whose blocks overlap, and one whose last burst passes register 255, are refused. -/
theorem smoke_regmap :
    RegMap.defaults.wf ∧ ({ RegMap.defaults with pllReset := 65 } : RegMap).wf = false ∧
    ({ RegMap.defaults with msBase := ⟨42, 50, 249⟩ } : RegMap).wf = false ∧
    ({ Params.defaults with rPos := 1 } : Params).wf = false ∧
    ({ Params.defaults with rPos := 6 } : Params).wf = false := by decide

/-! ### The commands -/

/-- 95_test_vectors.md P1, pc = 0. -/
theorem test_init :
    log? (exec (.init 3 3 3) State.reset) = some [.single 16 0x80, .single 17 0x80, .single 18 0x80] := by
  decide

theorem test_init_fields :
    (next? (exec (.init 3 0 1) running)).map (fun s => (s.pwr, s.f, s.fv, s.div)) =
      some (⟨3, 0, 1⟩, ⟨0, 0, 0⟩, ⟨true, true, true⟩, ⟨0, 0, 0⟩) := by decide

/-- 95_test_vectors.md P2, pc = 1. -/
theorem test_set_xtal_reset :
    (next? (exec (.setXtal 250000000 true) running)).map (fun s => (s.log, s.xtal, s.fv)) =
      some ([.single 177 0xA0], 250000000, ⟨false, false, false⟩) := by decide

theorem test_set_xtal_zero : flt? (exec (.setXtal 0 false) running) = some ⟨true, 3, 2⟩ := by decide

/-- 95_test_vectors.md E6. -/
theorem test_set_freq_100_mhz :
    log? (exec (.setFreq 100000000 0 0) (boot 250000000 false)) =
      some [.burst 26 [0xFF, 0xFF, 0x00, 0x0E, 0x00, 0xF0, 0x00, 0x00],
        .burst 42 [0x00, 0x01, 0x00, 0x02, 0x00, 0x00, 0x00, 0x00],
        .single 16 0x4F, .single 17 0x80, .single 18 0x80, .single 177 0xA0] := by decide

/-- 95_test_vectors.md P4: the two logs differ in the last strobe, with the open parameter. -/
theorem test_set_freq_early_return :
    log? (exec (.setFreq 12000000 200000000 7000000) (boot 270000000 false)) =
      some [.burst 26 [0xFF, 0xFF, 0x00, 0x0E, 0x71, 0xFC, 0x71, 0x71],
        .burst 42 [0x00, 0x01, 0x00, 0x23, 0x00, 0x00, 0x00, 0x00], .single 16 0x4F, .single 17 0x80,
        .single 177 0xA0] ∧
    log? (exec (.setFreq 12000000 200000000 7000000) (boot 270000000 true)) =
      some [.burst 26 [0xFF, 0xFF, 0x00, 0x0E, 0x71, 0xFC, 0x71, 0x71],
        .burst 42 [0x00, 0x01, 0x00, 0x23, 0x00, 0x00, 0x00, 0x00], .single 16 0x4F,
        .single 17 0x80] := by decide

/-- 95_test_vectors.md V-SF-F5: what branch A wrote before channel 2's fault. -/
theorem test_set_freq_branch_A_faults :
    (next? (exec (.setFreq 0 14000000 7000) (boot 250000000 false))).map
        (fun s => (s.log, s.pllb, s.div.ch1, s.flt)) =
      some ([.single 16 0x80, .burst 34 [0xFF, 0xFF, 0x00, 0x0F, 0xEB, 0xF8, 0x51, 0xEB],
        .burst 50 [0x00, 0x01, 0x00, 0x1E, 0x00, 0x00, 0x00, 0x00], .single 17 0x6F],
        896000000, 64, ⟨true, 9, 3⟩) := by decide

/-- 95_test_vectors.md §2.2, rows 2 and 6. -/
theorem test_enc_pll :
    log? (exec (.encPll 1 36 524288 1048575) State.reset) =
      some [.burst 34 [0xFF, 0xFF, 0x00, 0x10, 0x40, 0xF0, 0x00, 0x40]] ∧
    flt? (exec (.encPll 9 0 0 0) State.reset) = some ⟨true, 2, 0x10⟩ := by decide

/-- 95_test_vectors.md §2.3, rows 2 and 8. -/
theorem test_enc_ms_int :
    log? (exec (.encMsInt 1 900 7) State.reset) =
      some [.burst 50 [0x00, 0x01, 0x71, 0xC0, 0x00, 0x00, 0x00, 0x00]] ∧
    flt? (exec (.encMsInt 0 3 9) State.reset) = some ⟨true, 8, 0x11⟩ := by decide

/-- 95_test_vectors.md §2.4, row 1. -/
theorem test_enc_ms_frac :
    log? (exec (.encMsFrac 2 100 5 7 3) State.reset) =
      some [.single 58 0x00, .single 59 0x07, .single 60 0x30, .single 61 0x30, .single 62 0x5B,
        .single 63 0x00, .single 64 0x00, .single 65 0x03] := by decide

/-- 95_test_vectors.md §2.4, rows 4 and 8. -/
theorem test_enc_ms_frac_faults :
    flt? (exec (.encMsFrac 0 5 0 1 0) State.reset) = some ⟨true, 8, 0x12⟩ ∧
    flt? (exec (.encMsFrac 0 8 0 1 8) State.reset) = some ⟨true, 9, 0x12⟩ := by decide

/-- 95_test_vectors.md §2.5. -/
theorem test_disable :
    (next? (exec (.disable 0) running)).map (fun s => (s.log, s.div, s.f)) =
      some ([.single 16 0x80], ⟨0, 0, 0⟩, ⟨100000000, 0, 0⟩) ∧
    flt? (exec (.disable 3) running) = some ⟨true, 2, 0x13⟩ := by decide

/-! ### The search and its arithmetic -/

/-- 95_test_vectors.md E1: the rows on either side of each bound. -/
theorem test_search :
    search 150000001 = .underflow ∧ search 150000000 = .ok 6 0 900000000 ∧
    search 112500001 = .ok 6 0 675000006 ∧ search 100000 = .ok 562 4 899200000 ∧
    search 7804 = .ok 900 7 899020800 ∧ search 7803 = .rTooLarge := by decide

/-- 95_test_vectors.md §2.6. -/
theorem test_pll_params :
    pllParams 250000000 896000000 = (35, 880803) ∧ pllParams 98901099 900000000 = (90, 1048574) ∧
    pllParams 450000005 675000006 = (14, 1048574) ∧ pllParams 391304348 900000000 = (22, 1048575) := by
  decide

/-- 95_test_vectors.md §2.1 and E2, and the truncation of P1 = 268288 to 18 bits, 6144 (41_codec.md R122;
§2.1 writes 5632 there, log entry 16). -/
theorem test_p_block :
    pBlock (pWords 35 880803 0xFFFFF) 0 = [0xFF, 0xFF, 0x00, 0x0F, 0xEB, 0xF8, 0x51, 0xEB] ∧
    pBlock (pWords 22 0xFFFFF 0xFFFFF) 0 = pBlock (pWords 23 0 0xFFFFF) 0 ∧
    pBlock (pWords 2000 100 1) 0 = [0x00, 0x01, 0x00, 0x18, 0x00, 0x00, 0x00, 0x00] := by decide

/-! ### The step, the fault state, reset, the views of the log -/

/-- 95_test_vectors.md P6. -/
theorem test_step_illegal :
    flt? (step (State.reset.withFetchWord 128 0x13000000000000000000000000000100)) =
      some ⟨true, 1, 0x13⟩ := by decide

/-- 95_test_vectors.md P5, pc = 3: a refused command changes nothing. -/
theorem test_step_refused :
    (next? (step ({ running with flt := ⟨true, 4, 3⟩ }.withFetchWord 128
        0x0200000000000000000000000EE6B280))).map (fun s => (s.xtal, s.fv, s.flt, s.log)) =
      some (running.xtal, running.fv, ⟨true, 4, 3⟩, []) := by decide

/-- The word at the port is the command that the step runs. -/
theorem test_step_runs :
    log? (step (State.reset.withFetchWord 128 0x13000000000000000000000000000001)) =
      some [.single 17 0x80] := by decide

/-- 70_reset_and_hazards.md R250, R251. -/
theorem test_reset_input :
    (next? (step { running with flt := ⟨true, 1, 4⟩, port := [.reset] })).map
        (fun s => (s.xtal, s.f, s.fv, s.div, s.flt)) =
      some (0, ⟨0, 0, 0⟩, ⟨true, true, true⟩, ⟨0, 0, 0⟩, ⟨false, 0, 0⟩) := by decide

/-- 20_memory.md R62, R66: the calls of a DISABLE and of a burst go to the machine's DEV_ADDR, here not the
default one. -/
theorem test_bus_device :
    let s : State := { running with
      params := { Params.defaults with regMap := { RegMap.defaults with devAddr := 0x6F } } }
    (next? (exec (.disable 1) s)).map (·.busCalls) =
      some [.beginWrite 0x6F, .write 17, .write 0x80, .finish] ∧
    (next? (exec (.encMsInt 1 900 7) s)).map (·.busCalls) =
      some [.beginWrite 0x6F, .write 50, .write 0x00, .write 0x01, .write 0x71, .write 0xC0, .write 0x00,
        .write 0x00, .write 0x00, .write 0x00, .finish] := by decide

/-- 20_memory.md R62, R63: a single's calls, and the image after a burst and an overwrite. -/
theorem test_bus :
    busTrace RegMap.defaults [.single 16 0x80] = [.beginWrite 0x60, .write 16, .write 0x80, .finish] ∧
    imageOf [.burst 42 [1, 2], .single 42 7] = [(42, 7), (43, 2)] := by decide

/-- 43_controller.md R203: the place of a channel before and after a disable. -/
theorem test_channel_enabled :
    State.reset.channelEnabled .ch1 = none ∧
    (next? (exec (.disable 1) State.reset)).map (·.channelEnabled .ch1) = some (some false) := by decide

/-- 30_encoding.md R96, R97. -/
theorem test_assembler :
    Assembler.assembleLine "  ENC_PLL B, 32, 0, 1_048_575 ; comment".toList =
      .command (.encPll 1 32 0 1048575) ∧
    Assembler.assembleLine "ALL_OFF".toList = .command (.setFreq 0 0 0) ∧
    Assembler.assembleLine "SET_XTAL 0xEE6B280, RESET".toList = .command (.setXtal 250000000 true) := by
  decide

theorem test_assembler_refuses :
    Assembler.assembleLine "INIT 4, 0, 0".toList = .refused ∧
    Assembler.assembleLine "SET_FREQ 1, 2".toList = .refused ∧
    Assembler.assembleLine "; nothing".toList = .empty := by decide

/-! ### Witnesses: concrete states and operands that meet the hypotheses of each obligation -/

theorem witness_EncodeDecodeGivesTheWordBack :
    decode 0x01000000000000000000000000000024 = .instr (.init 0 1 2) := by decide

theorem witness_DecodeFollowsTheMaskTable :
    (0x0200000000000000000000010EE6B280 : CmdWord) &&& 0xFFFFFFFFFFFFFFFFFFFFFFFE00000000 =
      0x02000000000000000000000000000000 := by decide

theorem witness_IllegalWordFaults :
    let w : CmdWord := 0x13000000000000000000000000000100
    let s : State := { running with port := [.command w] }
    s.flt.v = false ∧ s.port = .command w :: [] ∧ ∀ op : Opcode, w &&& op.mask ≠ op.matchWord :=
  ⟨rfl, rfl, fun op => by cases op <;> decide⟩

/-- Both disjuncts for each command, at the boundary of a field. -/
theorem witness_AssemblerRefusesOversizedNumbers :
    Assembler.assemble (.init 0 4 0) = none ∧ Assembler.assemble (.init 3 2 1) = some (.init 3 2 1) ∧
    Assembler.assemble (.setXtal 4294967296 false) = none ∧
    Assembler.assemble (.setXtal 4294967295 true) = some (.setXtal 4294967295 true) ∧
    Assembler.assemble (.setFreq 0 4294967296 0) = none ∧
    Assembler.assemble (.setFreq 0 4294967295 0) = some (.setFreq 0 4294967295 0) ∧
    Assembler.assemble (.encPll .pllA 32 0 4294967296) = none ∧
    Assembler.assemble (.encPll .pllA 32 0 1) = some (.encPll 0 32 0 1) ∧
    Assembler.assemble (.encPll .pllB 4294967295 0 1) = some (.encPll 1 4294967295 0 1) ∧
    Assembler.assemble (.encMsInt 0 8 256) = none ∧
    Assembler.assemble (.encMsInt 255 8 7) = some (.encMsInt 255 8 7) ∧
    Assembler.assemble (.encMsFrac 256 8 0 1 0) = none ∧
    Assembler.assemble (.encMsFrac 255 8 0 1 255) = some (.encMsFrac 255 8 0 1 255) ∧
    Assembler.assemble (.disable 256) = none ∧
    Assembler.assemble (.disable 255) = some (.disable 255) := by decide

/-- Clause 1 at both ends of every range (R_POS 2 and 5), clause 2 at b = c. -/
theorem witness_ParameterBlockRoundTrips :
    decodeBlock 5 (pBlock (pWords 900 1048574 1048575) (7 <<< 5)) = some ⟨900, 1048574, 1048575, 7⟩ ∧
    decodeBlock 2 (pBlock (pWords 6 0 1) (0 <<< 2)) = some ⟨6, 0, 1, 0⟩ ∧
    pBlock (pWords 6 1 1) 0 = pBlock (pWords 7 0 1) 0 := by decide

/-- Every clause of the three codec commands at a boundary of its range, from a healthy state. -/
theorem witness_EncPllCommand :
    running.flt.v = false ∧ 1 < (2 : BitVec 8).toNat ∧ (1 : BitVec 8).toNat = 1 ∧
    flt? (exec (.encPll 2 15 0 1) running) = some ⟨true, 2, 0x10⟩ ∧
    flt? (exec (.encPll 0 14 0 1) running) = some ⟨true, 5, 0x10⟩ ∧
    flt? (exec (.encPll 1 91 0 1) running) = some ⟨true, 5, 0x10⟩ ∧
    flt? (exec (.encPll 0 90 1048576 1) running) = some ⟨true, 6, 0x10⟩ ∧
    flt? (exec (.encPll 0 15 1048575 0) running) = some ⟨true, 7, 0x10⟩ ∧
    flt? (exec (.encPll 0 15 1048575 1048576) running) = some ⟨true, 7, 0x10⟩ ∧
    flt? (exec (.encPll 1 90 1048575 1048575) running) = some ⟨false, 0, 0⟩ := by decide

theorem witness_EncMsIntCommand :
    running.flt.v = false ∧ (2 : BitVec 8).toNat = Channel.ch2.index ∧
    flt? (exec (.encMsInt 3 6 0) running) = some ⟨true, 2, 0x11⟩ ∧
    flt? (exec (.encMsInt 0 5 0) running) = some ⟨true, 8, 0x11⟩ ∧
    flt? (exec (.encMsInt 1 901 0) running) = some ⟨true, 8, 0x11⟩ ∧
    flt? (exec (.encMsInt 2 7 0) running) = some ⟨true, 8, 0x11⟩ ∧
    flt? (exec (.encMsInt 2 900 8) running) = some ⟨true, 9, 0x11⟩ ∧
    flt? (exec (.encMsInt 2 6 7) running) = some ⟨false, 0, 0⟩ := by decide

theorem witness_EncMsFracCommand :
    running.flt.v = false ∧ (2 : BitVec 8).toNat = Channel.ch2.index ∧
    flt? (exec (.encMsFrac 3 6 0 1 0) running) = some ⟨true, 2, 0x12⟩ ∧
    flt? (exec (.encMsFrac 0 901 0 1 0) running) = some ⟨true, 8, 0x12⟩ ∧
    flt? (exec (.encMsFrac 0 900 1048576 1 0) running) = some ⟨true, 6, 0x12⟩ ∧
    flt? (exec (.encMsFrac 0 6 1048575 1048576 0) running) = some ⟨true, 7, 0x12⟩ ∧
    flt? (exec (.encMsFrac 0 6 1048575 1048575 8) running) = some ⟨true, 9, 0x12⟩ ∧
    flt? (exec (.encMsFrac 2 7 1048575 1 7) running) = some ⟨false, 0, 0⟩ := by decide

theorem witness_DisableCommand :
    running.flt.v = false ∧ 2 < (3 : BitVec 8).toNat ∧ (2 : BitVec 8).toNat = Channel.ch2.index := by
  decide

theorem witness_FracWithUnitDenominatorWritesTheIntegerBlock :
    running.flt.v = false ∧ (2 : BitVec 8).toNat ≤ 2 ∧ 6 ≤ (900 : BitVec 32).toNat ∧
    (900 : BitVec 32).toNat ≤ 900 ∧ (900 : BitVec 32).toNat % 2 = 0 ∧ (7 : BitVec 8).toNat ≤ 7 := by
  decide

theorem witness_PureCodecCommandsReadNoState :
    IsPureCodec (.encPll 0 32 0 1) ∧ IsPureCodec (.encMsInt 0 8 0) ∧ IsPureCodec (.encMsFrac 0 8 0 1 0) ∧
    running.params = running.params ∧ running.flt.v = false := ⟨trivial, trivial, trivial, rfl, rfl⟩

theorem witness_CodecCommandsNeverStrobe :
    ¬ IsController (.encMsFrac 2 100 5 7 3) ∧ running.params.wf = true ∧
    ∃ t, exec (.encMsFrac 2 100 5 7 3) running = .next t := ⟨id, by decide, _, rfl⟩

/-- The last burst that stays inside the register space, and both branches of each clause. -/
theorem witness_RegisterImageAfterATransaction :
    ([0, 1, 2, 3, 4, 5, 6, 7] : List Byte).length = 8 ∧ (248 : Byte).toNat + 8 ≤ 256 ∧
    (imageOf [.burst 248 [0, 1, 2, 3, 4, 5, 6, 7]]).read 255 = some 7 ∧
    (imageOf [.burst 248 [0, 1, 2, 3, 4, 5, 6, 7]]).read 247 = none ∧
    (imageOf [.single 9 3]).read 9 = some 3 ∧ (imageOf [.single 9 3]).read 8 = none := by decide

theorem witness_BurstAndEightSinglesLeaveTheSameImage :
    ([0, 1, 2, 3, 4, 5, 6, 7] : List Byte).length = 8 := rfl

theorem witness_StepOnlyAppendsToTheLog :
    ∃ t, step (running.withFetchWord 128 0x13000000000000000000000000000001) = .next t := ⟨_, rfl⟩

theorem witness_StepWritesOnlyMappedRegisters :
    let s : State := { running.withFetchWord 128 0x13000000000000000000000000000001 with
      log := [.single 16 0x80] }
    LogLegal s ∧ ∃ t, step s = .next t := by
  refine ⟨fun t ht => ?_, _, rfl⟩
  obtain rfl := List.mem_singleton.1 ht
  exact .inl ⟨.ch0, rfl⟩

/-- Each side of each bound. -/
theorem witness_SearchOutcome :
    search 150000001 = .underflow ∧ search 150000000 ≠ .underflow ∧ search 1 = .rTooLarge ∧
    search 7803 = .rTooLarge ∧ search 7804 = .ok 900 7 899020800 ∧ search 150000000 = .ok 6 0 900000000 :=
  by decide

theorem witness_SearchResultRange :
    1 ≤ 112500001 ∧ search 112500001 = .ok 6 0 675000006 := by decide

/-- The three clauses on x, at their boundaries. -/
theorem witness_NumeratorOfPllParams :
    search 1000000 = .ok 900 0 900000000 ∧ 10 % 10 = 0 ∧ 8 * 0xFFFFF < 8 * 0xFFFFF + 1 ∧
    (pllParams 10 900000000).2 < 0xFFFFF ∧ (pllParams (8 * 0xFFFFF + 1) 900000000).2 ≤ 0xFFFFF ∧
    90 < (pllParams (8 * 0xFFFFF) 900000000).1 := by decide

theorem witness_MultiplierStaysInRange :
    search 1000000 = .ok 900 0 900000000 ∧ (pllParams 98901099 900000000).1 = 90 ∧
    search 112500001 = .ok 6 0 675000006 ∧ (pllParams 450000004 675000006).1 = 15 := by decide

/-- A hit, and a miss with each outcome. -/
theorem witness_CacheGateReprogramsOnlyOnAChange :
    (running.div.get .ch0).toNat = 8 ∧ (running.rsh.get .ch0).toNat = 0 ∧
    (running.div.get .ch0).toNat ≠ 902 ∧ (running.rsh.get .ch0).toNat ≠ 8 ∧
    (running.rsh.get .ch0).toNat ≠ 7 := by decide

/-- The least shift for 7804 Hz is 7, and what the search yields. -/
theorem yields_7804 : SearchYields 7804 900 7 899020800 := by
  refine ⟨⟨by decide, ?_⟩, by decide, by decide⟩
  decide

theorem yields_150_mhz : SearchYields 150000000 6 0 900000000 := by
  refine ⟨⟨by decide, ?_⟩, by decide, by decide⟩
  decide

theorem yields_100_mhz : SearchYields 100000000 8 0 800000000 := by
  refine ⟨⟨by decide, ?_⟩, by decide, by decide⟩
  decide

/-- Clauses 1 and 2 at their bounds; clause 3 with each of its three outcomes. -/
theorem witness_ProgramChannelOutcome :
    150000001 ≤ 150000001 ∧ 7803 ≤ 7803 ∧ SearchYields 7804 900 7 899020800 ∧
    SearchYields 150000000 6 0 900000000 ∧ State.reset.xtal = 0 ∧ running.xtal ≠ 0 ∧
    899020800 * 10 / running.xtal.toNat = 35 ∧ 900000000 * 10 / (boot 25000000 false).xtal.toNat = 360 :=
  ⟨by decide, by decide, yields_7804, yields_150_mhz, rfl, by decide, by decide, by decide⟩

/-- Both clauses at the bound 6, and both outcomes of the second at the bound 7. -/
theorem witness_Ch2FracOutcome :
    896000000 < 2 ^ 32 ∧ 896000000 / 149333334 < 6 ∧ 6 ≤ 896000000 / 149333333 ∧
    896000000 / (7770 * 128) ≤ 900 ∧ 900 < 896000000 / (7769 * 128) := by decide

theorem witness_InitCommand : running.flt.v = false := rfl

theorem witness_SetXtalCommand :
    running.flt.v = false ∧ (0 : BitVec 32) = 0 ∧ (1 : BitVec 32) ≠ 0 := by decide

/-- A fault in channel 0, a fault in the group, and no fault. -/
theorem witness_SetFreqOrder :
    running.flt.v = false ∧
    (∃ c s1, channel0 (changed .ch0 7803 running) 7803 (latched 7803 0 0 running) = .raised c s1) ∧
    (∃ s1, channel0 (changed .ch0 0 running) 0 (latched 0 7803 0 running) = .done () s1 ∧
      ∃ c s2, pllBGroup (changed .ch1 7803 running) (changed .ch2 0 running) 7803 0 s1 = .raised c s2) ∧
    (∃ s1, channel0 (changed .ch0 0 running) 0 (latched 0 0 7804 running) = .done () s1 ∧
      ∃ early s2, pllBGroup (changed .ch1 0 running) (changed .ch2 7804 running) 0 7804 s1 =
        .done early s2) :=
  ⟨rfl, ⟨_, _, rfl⟩, ⟨_, rfl, _, _, rfl⟩, ⟨_, rfl, _, _, rfl⟩⟩

theorem witness_BranchSelection :
    (∃ res t, programChannel .ch0 7804 false running = .done res t) ∧
    (∃ pll t, programChannel .ch1 14000000 false running = .done (some pll) t ∧
      ∃ u, ch2Frac (BitVec.ofNat 32 pll).toNat 7000000 { t with pllb := BitVec.ofNat 32 pll } =
        .done () u) ∧
    (∃ t, programChannel .ch1 150000001 false running = .done none t) ∧
    (∃ u, ch2Frac running.pllb.toNat 7000000 running = .done () u) ∧
    (∃ res t, programChannel .ch2 7000000 true (disabled .ch1 running) = .done res t) ∧
    (true || false) = true :=
  ⟨⟨_, _, rfl⟩, ⟨_, _, rfl, _, rfl⟩, ⟨_, rfl⟩, ⟨_, rfl⟩, ⟨_, _, rfl⟩, rfl⟩

/-- The raising clauses: channel 0, channel 1, channel 2 of branch A (95_test_vectors.md V-SF-F5), of branch
B and of branch C. -/
theorem witness_BranchSelection_raising :
    (∃ c t, programChannel .ch0 7803 false running = .raised c t) ∧
    (∃ c t, programChannel .ch1 7803 false running = .raised c t) ∧
    (∃ pll t, programChannel .ch1 14000000 false running = .done (some pll) t ∧
      ∃ c u, ch2Frac (BitVec.ofNat 32 pll).toNat 7000 { t with pllb := BitVec.ofNat 32 pll } =
        .raised c u) ∧
    (let s : State := { running with pllb := 896000000 }
     ∃ c u, ch2Frac s.pllb.toNat 7000 s = .raised c u) ∧
    (∃ c t, programChannel .ch2 7803 true (disabled .ch1 running) = .raised c t) ∧
    (true || false) = true :=
  ⟨⟨_, _, rfl⟩, ⟨_, _, rfl⟩, ⟨_, _, rfl, _, _, rfl⟩, ⟨_, _, rfl⟩, ⟨_, _, rfl⟩, rfl⟩

/-- All hypotheses at the two ends of the crystal's range and at the ends of the requests' ranges, with
every channel changed. -/
theorem witness_SetFreqCompletes :
    (boot 98901099 false).flt.v = false ∧ 98901099 ≤ (boot 98901099 false).xtal.toNat ∧
    (boot 450000004 false).xtal.toNat ≤ 450000004 ∧ PllbLegal (boot 98901099 false).pllb ∧
    PllbLegal 675000006 ∧ PllbLegal 900000000 ∧ (Instr.setFreq 7804 150000000 4294967295).wellFormed = true ∧
    changed .ch0 7804 (boot 98901099 false) = true ∧ changed .ch2 7804 running = true ∧
    changed .ch1 0 running = false ∧ SearchYields (7804 : BitVec 32).toNat 900 7 899020800 :=
  ⟨rfl, by decide, by decide, .inl rfl, .inr (by decide), .inr (by decide), by decide, by decide,
    by decide, by decide, yields_7804⟩

/-- The last clause of it: channel 1 enabled and unchanged, channel 2 changed. -/
theorem witness_SetFreqCompletes_branch_B :
    let s : State := { running with f := ⟨0, 14000000, 0⟩, pllb := 896000000 }
    changed .ch1 14000000 s = false ∧ changed .ch2 7000000 s = true ∧ PllbLegal s.pllb :=
  ⟨by decide, by decide, .inr (by decide)⟩

theorem witness_AllOffWritesOnlyDisables : running.flt.v = false ∧ changed .ch0 0 running = true ∧
    changed .ch1 0 running = false ∧ changed .ch1 0 (boot 250000000 false) = true := by decide

theorem witness_Channel0OffIsOneWrite :
    running.flt.v = false ∧ ¬ Unchanged .ch0 0 running ∧ Unchanged .ch1 0 running ∧
    Unchanged .ch2 0 running := by
  unfold Unchanged
  decide

theorem witness_Channel0ProgrammedAlone :
    let s : State := { running with f := ⟨0, 0, 0⟩ }
    s.flt.v = false ∧ ¬ Unchanged .ch0 100000000 s ∧ Unchanged .ch1 0 s ∧ Unchanged .ch2 0 s ∧
    7804 ≤ (100000000 : BitVec 32).toNat ∧ (100000000 : BitVec 32).toNat ≤ 150000000 ∧
    SearchYields (100000000 : BitVec 32).toNat 8 0 800000000 ∧ 98901099 ≤ s.xtal.toNat ∧
    s.xtal.toNat ≤ 450000004 ∧ 32 = 800000000 * 10 / s.xtal.toNat ∧
    0 = (800000000 - 32 * s.xtal.toNat / 10) * 0xFFFFF * 10 / s.xtal.toNat := by
  refine ⟨rfl, ?_, ?_, ?_, by decide, by decide, yields_100_mhz, by decide, by decide, by decide,
    by decide⟩ <;> unfold Unchanged <;> decide

/-- With a reset owed by channel 0, at the least frequency that underflows. -/
theorem witness_EarlyReturnLeavesChannel2Alone :
    let s := boot 270000000 false
    s.flt.v = false ∧ s.params.wf = true ∧ ¬ Unchanged .ch1 150000001 s ∧
    150000001 ≤ (150000001 : BitVec 32).toNat ∧
    ∃ s1, channel0 (changed .ch0 12000000 s) 12000000 (latched 12000000 150000001 7000000 s) =
      .done () s1 ∧ s1.owed = true :=
  ⟨rfl, by decide, by simp [Unchanged, boot], by decide, _, rfl, by decide⟩

/-- The same with the open parameter's other value. -/
theorem witness_EarlyReturnLeavesChannel2Alone_skipping :
    let s := boot 270000000 true
    s.flt.v = false ∧ s.params.wf = true ∧ ¬ Unchanged .ch1 150000001 s ∧
    150000001 ≤ (150000001 : BitVec 32).toNat ∧
    ∃ s1, channel0 (changed .ch0 12000000 s) 12000000 (latched 12000000 150000001 7000000 s) =
      .done () s1 ∧ s1.owed = true :=
  ⟨rfl, by decide, by simp [Unchanged, boot], by decide, _, rfl, by decide⟩

theorem witness_RepeatedSetFreqEmitsNothing :
    ∃ t, exec (.setFreq 100000000 0 0) (boot 250000000 false) = .next t ∧ t.flt.v = false :=
  ⟨_, rfl, rfl⟩

theorem witness_AllOffAfterInitEmitsNothing : running.flt.v = false := rfl

theorem witness_SetXtalInvalidatesEveryChannel :
    running.flt.v = false ∧ (250000000 : BitVec 32) ≠ 0 := by decide

theorem witness_DisabledChannelStaysDownOnTheSameRequest :
    running.flt.v = false ∧ (2 : BitVec 8).toNat ≤ 2 ∧ running.fv = ⟨true, true, true⟩ := by decide

/-- A SET_FREQ that ends and one that faults. -/
theorem witness_SetFreqLatchesFirst :
    running.flt.v = false ∧
    (∃ t, exec (.setFreq 0 0 0) running = .next t ∧ t.flt.v = false) ∧
    ∃ t, exec (.setFreq 1 0 0) running = .next t ∧ t.flt.v = true :=
  ⟨rfl, ⟨_, rfl, rfl⟩, _, rfl, rfl⟩

theorem witness_UnchangedChannelsAreUntouched :
    running.flt.v = false ∧ running.params.wf = true ∧ Unchanged .ch0 100000000 running ∧
    Unchanged .ch1 0 running ∧ Unchanged .ch2 0 running ∧ IsChannel0Reg running.params.regMap 49 ∧
    IsGroupReg running.params.regMap 65 ∧
    ∃ t, exec (.setFreq 100000000 0 0) running = .next t := by
  refine ⟨rfl, by decide, ?_, ?_, ?_, ?_, ?_, _, rfl⟩
  · unfold Unchanged; decide
  · unfold Unchanged; decide
  · unfold Unchanged; decide
  · exact .inr (.inr ⟨by decide, by decide⟩)
  · exact .inr (.inr (.inr (.inr ⟨by decide, by decide⟩)))

/-- A command of each kind that writes each field. -/
theorem witness_OnlyTheNamedCommandsWriteAField :
    (∃ t, exec (.setXtal 1 false) running = .next t ∧ t.xtal ≠ running.xtal ∧ t.fv ≠ running.fv) ∧
    (∃ t, exec (.init 0 1 2) running = .next t ∧ t.pwr ≠ running.pwr ∧ t.f ≠ running.f ∧
      t.div ≠ running.div) ∧
    (∃ t, exec (.setFreq 7804 14000000 0) running = .next t ∧ t.pllb ≠ running.pllb ∧
      t.rsh ≠ running.rsh) ∧
    (∃ t, exec (.setFreq 0 150000001 0) running = .next t ∧ t.diag ≠ running.diag) :=
  ⟨⟨_, rfl, by decide, by decide⟩, ⟨_, rfl, by decide, by decide, by decide⟩,
    ⟨_, rfl, by decide, by decide⟩, ⟨_, rfl, by decide⟩⟩

theorem witness_StepKeepsValuesLegal :
    ValuesLegal running ∧
    ∃ t, step (running.withFetchWord 128 0x03000000000000000000000005F5E100) = .next t := by
  refine ⟨⟨fun k => ?_, .inl rfl⟩, _, rfl⟩
  cases k
  · exact .inr (by decide)
  · exact .inl rfl
  · exact .inl rfl

/-- A state that caches a divider, with the log that put it on the chip. -/
theorem witness_ControllerKeepsCachesTruthful :
    let s : State := { running with log :=
      [.burst 42 [0x00, 0x01, 0x00, 0x02, 0x00, 0x00, 0x00, 0x00], .single 16 0x4F] }
    IsController (.setFreq 0 0 0) ∧ s.params.wf = true ∧ CacheTruthful s ∧
    ∃ t, exec (.setFreq 0 0 0) s = .next t := by
  refine ⟨trivial, by decide, fun k hk => ?_, _, rfl⟩
  cases k
  · decide
  · exact absurd rfl hk
  · exact absurd rfl hk

theorem witness_FaultEntryKeepsEarlierEffects :
    running.flt.v = false ∧ (∃ s', (fun s => Ran.raised .xtalUnset (strobe s)) running =
      (.raised .xtalUnset s' : Ran Unit)) ∧
    encPll .pllB 14 0 1 running = .raised .pllMultRange running ∧
    encMsInt .ch2 7 0 running = .raised .msDivRange running ∧
    encMsFrac .ch0 901 0 1 0 running = .raised .msDivRange running :=
  ⟨rfl, ⟨_, rfl⟩, rfl, rfl, rfl⟩

theorem witness_FaultedBlockRefusesEveryCommand :
    let s : State := { running with flt := ⟨true, 4, 3⟩ }
    s.flt.v = true ∧ ({ s with port := [.command 0] } : State).port = .command 0 :: [] ∧
    ∃ t, step { s with port := [.reset] } = .next t ∧ t.flt ≠ s.flt :=
  ⟨rfl, rfl, _, rfl, by decide⟩

/-- Each of the three causes. -/
theorem witness_SetFreqRaisesOnlyThreeCauses :
    running.flt.v = false ∧
    flt? (exec (.setFreq 14000000 0 0) State.reset) = some ⟨true, 4, 3⟩ ∧
    flt? (exec (.setFreq 14000000 0 0) (boot 25000000 false)) = some ⟨true, 5, 3⟩ ∧
    flt? (exec (.setFreq 7803 0 0) running) = some ⟨true, 9, 3⟩ := by decide

theorem witness_StepKeepsFaultRegisterLegal :
    FaultLegal running.flt ∧ FaultLegal ⟨true, 4, 3⟩ ∧
    ∃ t, step (running.withFetchWord 128 0x04000000000000000000000000000000) = .next t :=
  ⟨.inl rfl, .inr ⟨.xtalUnset, rfl, rfl, rfl⟩, _, rfl⟩

theorem witness_StepRunsTheDecodedCommand :
    (running.withFetchWord 128 0x13000000000000000000000000000001).port =
      .command 0x13000000000000000000000000000001 :: [] ∧
    decode 0x13000000000000000000000000000001 = .instr (.disable 1) := ⟨by decide, by decide⟩

theorem yields_14_mhz : SearchYields 14000000 64 0 896000000 := by
  refine ⟨⟨by decide, ?_⟩, by decide, by decide⟩
  decide

/-- The highest request of channel 2 that still passes R = 7 at this PLLB, and channel 0 programmed before. -/
theorem witness_Channel2FaultKeepsChannel1 :
    let s := boot 250000000 false
    s.flt.v = false ∧ ¬ Unchanged .ch1 14000000 s ∧ 7804 ≤ (14000000 : BitVec 32).toNat ∧
    (14000000 : BitVec 32).toNat ≤ 150000000 ∧
    SearchYields (14000000 : BitVec 32).toNat 64 0 896000000 ∧ (7769 : BitVec 32) ≠ 0 ∧
    900 < 896000000 / ((7769 : BitVec 32).toNat * 128) ∧ 98901099 ≤ s.xtal.toNat ∧
    s.xtal.toNat ≤ 450000004 ∧ 35 = 896000000 * 10 / s.xtal.toNat ∧
    880803 = (896000000 - 35 * s.xtal.toNat / 10) * 0xFFFFF * 10 / s.xtal.toNat ∧
    ∃ s1, channel0 (changed .ch0 12000000 s) 12000000 (latched 12000000 14000000 7769 s) =
      .done () s1 :=
  ⟨rfl, by simp [Unchanged, boot], by decide, by decide, yields_14_mhz, by decide, by decide, by decide,
    by decide, by decide, by decide, _, rfl⟩

theorem witness_StepWritesToTheDeviceAddress :
    let s := running.withFetchWord 128 0x13000000000000000000000000000001
    ∃ t, step s = .next t ∧ BusOp.beginWrite s.params.regMap.devAddr ∈ t.busCalls :=
  ⟨_, rfl, by decide⟩

theorem witness_ResetInput :
    ({ running with port := [.reset, .command 0] } : State).port = .reset :: [.command 0] := rfl

theorem witness_NothingHappensWithoutAnInput : running.port = [] := rfl

end Sys2Proof.Tests
end

/-! ### The host's next input -/

namespace Sys2Proof.Machine

variable {s : State} {w : CmdWord} {rest : List HostInput}

theorem takeInput_nil (h : s.port = []) : takeInput s = none := by
  simp only [takeInput, h]

theorem takeInput_reset (h : s.port = .reset :: rest) :
    takeInput s = some (.reset, { s with port := rest }) := by
  simp only [takeInput, h]

theorem takeInput_command (h : s.port = .command w :: rest) :
    takeInput s = some (.command w, { s with port := rest, pc := s.pc + 1 }) := by
  simp only [takeInput, h]

end Sys2Proof.Machine

/-! ### A step on a word that decodes -/

namespace Sys2Proof.Proofs

open Sys2Proof.Machine

/-- Settles O52: the input taken off the port is the command word, and its decoding selects `exec`. -/
theorem stepRunsTheDecodedCommand : Obligations.StepRunsTheDecodedCommand := by
  intro s w rest i hport hdecode
  simp only [step, takeInput_command hport, hdecode]

end Sys2Proof.Proofs

/-! ### The range of a search's result -/

namespace Sys2Proof.Machine

/-- R30: an even divider d of 6 or more with d F at most the ceiling and (d + 2) F above it. For d = 6,
8 F is above the ceiling; from d = 8 on, d F loses at most a fifth of it. -/
theorem evenedProduct_ge {d F : Nat} (h6 : 6 ≤ d) (he : d % 2 = 0)
    (hlt : 900000000 < (d + 2) * F) : 675000006 ≤ d * F := by
  rw [Nat.add_mul] at hlt
  by_cases h : d = 6
  · subst h; omega
  · have h8 : 8 * F ≤ d * F := Nat.mul_le_mul_right F (by omega)
    omega

/-- The search's divider and shift against its request: d 2^r is within the first quotient, and the
product d f 2^r within the ceiling and no lower than R30 says. -/
theorem search_ok_bounds {f d r pll : Nat} (h : search f = .ok d r pll) :
    d * 2 ^ r ≤ 900000000 / f ∧ 675000006 ≤ pll ∧ pll ≤ 900000000 := by
  obtain ⟨hd6, -, heven, -, hpll⟩ := search_ok h
  have hd : d = 900000000 / f / 2 ^ r - 900000000 / f / 2 ^ r % 2 := by
    rcases search_cases f with ⟨-, hs⟩ | ⟨-, r', -, -, ⟨-, hs⟩ | ⟨-, hs⟩⟩ <;> rw [hs] at h <;> cases h
    rfl
  have hle : d ≤ 900000000 / f / 2 ^ r := by omega
  have hlt : 900000000 / f / 2 ^ r < d + 2 := by omega
  have hf : 0 < f * 2 ^ r := Nat.pos_of_ne_zero fun h0 => by
    rw [Nat.div_div_eq_div_mul, h0] at hle; omega
  rw [hpll, Nat.mul_assoc]
  refine ⟨(Nat.le_div_iff_mul_le (Nat.two_pow_pos r)).1 hle, evenedProduct_ge hd6 heven ?_, ?_⟩
  · rwa [Nat.div_div_eq_div_mul, Nat.div_lt_iff_lt_mul hf] at hlt
  · rwa [Nat.div_div_eq_div_mul, Nat.le_div_iff_mul_le hf] at hle

end Sys2Proof.Machine

/-! ### What a step and a command can do -/

namespace Sys2Proof.Machine

/-- A step idles, takes the reset input, or takes a word that is a command or is none. -/
theorem step_cases {s t : State} (h : step s = .next t) :
    (s.port = [] ∧ t = s) ∨
    (∃ rest, s.port = .reset :: rest ∧ t = resetBlock { s with port := rest }) ∨
    (∃ w rest, s.port = .command w :: rest ∧
      ((∃ i, decode w = .instr i ∧ exec i { s with port := rest, pc := s.pc + 1 } = .next t) ∨
       (∃ r, decode w = .rejected r ∧
        execIllegal w { s with port := rest, pc := s.pc + 1 } = .next t))) := by
  cases hp : s.port with
  | nil =>
    simp only [step, takeInput_nil hp] at h
    cases h
    exact .inl ⟨rfl, rfl⟩
  | cons input rest =>
    cases input with
    | reset =>
      simp only [step, takeInput_reset hp] at h
      cases h
      exact .inr (.inl ⟨rest, rfl, rfl⟩)
    | command w =>
      simp only [step, takeInput_command hp] at h
      refine .inr (.inr ⟨w, rest, rfl, ?_⟩)
      cases hw : decode w with
      | instr i => exact .inl ⟨i, rfl, by simpa only [hw] using h⟩
      | rejected r => exact .inr ⟨r, rfl, by simpa only [hw] using h⟩

/-- A word that is no command writes at most FLT. -/
theorem execIllegal_next {w : CmdWord} {s t : State} (h : execIllegal w s = .next t) :
    ∃ flt, t = { s with flt := flt } :=
  runCommand_next (P := fun t => ∃ flt, t = { s with flt := flt }) h (fun _ => ⟨s.flt, rfl⟩)
    fun _ => ⟨_, rfl⟩

/-- The state in which a part of a command ends or raises. -/
def Ran.state {α : Type} (m : Ran α) : State :=
  match m with
  | .done _ s => s
  | .raised _ s => s

theorem Ran.Spec.state {α : Type} {m : Ran α} {P : State → Prop}
    (h : m.Spec (fun _ => P) (fun _ => P)) : P m.state := by
  cases m
  · exact h
  · exact h

/-- But for FLT, a command leaves the block as it was or as its body ends or raises. -/
theorem exec_next {i : Instr} {s t : State} (h : exec i s = .next t) :
    ∃ u flt, t = { u with flt := flt } ∧ (u = s ∨ u = (body i s).state) := by
  rw [exec_eq_runCommand] at h
  rcases runCommand_cases i.opcode.byte (body i) s with
      ⟨-, hr⟩ | ⟨-, u, hd, hr⟩ | ⟨-, c, u, hd, hr⟩ <;> rw [hr] at h <;> cases h
  · exact ⟨s, s.flt, rfl, .inl rfl⟩
  · exact ⟨t, t.flt, rfl, .inr (by rw [hd]; rfl)⟩
  · exact ⟨u, _, rfl, .inr (by rw [hd]; rfl)⟩

theorem Ran.Spec.and {α : Type} {m : Ran α} {Q Q' : α → State → Prop} {R R' : Cause → State → Prop}
    (h : m.Spec Q R) (h' : m.Spec Q' R') :
    m.Spec (fun a s => Q a s ∧ Q' a s) (fun c s => R c s ∧ R' c s) := by
  cases m
  · exact ⟨h, h'⟩
  · exact ⟨h, h'⟩

/-- SET_XTAL refuses 0 before any write; else it sets XTAL, clears every FV, and strobes with RST. -/
theorem setXtal_cases (x : BitVec 32) (rst : Bool) (s : State) :
    (x = 0 ∧ setXtal x rst s = .raised .xtalZero s) ∨
    (x ≠ 0 ∧ setXtal x rst s = .done ()
      (if rst then strobe (setAllFv false { s with xtal := x })
        else setAllFv false { s with xtal := x })) := by
  by_cases hx : x = 0
  · exact .inl ⟨hx, guardFault_of hx _ _ _⟩
  · exact .inr ⟨hx, guardFault_of_not hx _ _ _⟩

/-- At most the log differs. -/
def LogOnly (s t : State) : Prop := ∃ log, t = { s with log := log }

/-- R135: ENC_PLL, ENC_MS_INT and ENC_MS_FRAC write no state of the block but, through `runCommand`,
FLT. -/
theorem body_pureCodec {i : Instr} (h : Claims.IsPureCodec i) (s : State) :
    (body i s).Spec (fun _ => LogOnly s) (fun _ => LogOnly s) := by
  have same : LogOnly s s := ⟨s.log, rfl⟩
  cases i with
  | init | setXtal | setFreq | disable => exact h.elim
  | encPll sel a b c =>
    exact withSel_spec (fun _ => same) fun p _ =>
      guardFault_spec (fun _ => same) fun _ => guardFault_spec (fun _ => same) fun _ =>
      guardFault_spec (fun _ => same) fun _ => ⟨_, rfl⟩
  | encMsInt sel d r =>
    exact withSel_spec (fun _ => same) fun k _ =>
      guardFault_spec (fun _ => same) fun _ => guardFault_spec (fun _ => same) fun _ => ⟨_, rfl⟩
  | encMsFrac sel d b c r =>
    exact withSel_spec (fun _ => same) fun k _ =>
      guardFault_spec (fun _ => same) fun _ => guardFault_spec (fun _ => same) fun _ =>
      guardFault_spec (fun _ => same) fun _ => guardFault_spec (fun _ => same) fun _ =>
      ⟨_, singles_eq _ _ s⟩

end Sys2Proof.Machine

/-! ### An invariant of the parts of SET_FREQ -/

namespace Sys2Proof.Machine

/-- Every part of a SET_FREQ keeps P: `c1` says that channel 1 counts as changed, `f1` is its request. -/
structure SetFreqKeeps (c1 : Bool) (f1 : Nat) (P : State → Prop) : Prop where
  disable : ∀ k u, P u → P (disableChannel k u)
  program : ∀ k f immediate u, P u →
    (programChannel k f immediate u).Spec (fun _ => P) (fun _ => P)
  fromPllb : ∀ f2 u, P u → (channel2FromPllb f2 u).Spec (fun _ => P) (fun _ => P)
  pllb : ∀ d r pll u, c1 = true → f1 ≠ 0 → search f1 = .ok d r pll → P u →
    P { u with pllb := BitVec.ofNat 32 pll }
  strobe : ∀ u, P u → P (strobe u)

namespace SetFreqKeeps

variable {c1 : Bool} {f1 : Nat} {P : State → Prop} (hP : SetFreqKeeps c1 f1 P)

include hP

theorem channel0 (c0 : Bool) (f0 : Nat) {u : State} (hu : P u) :
    (channel0 c0 f0 u).Spec (fun _ => P) (fun _ => P) := by
  unfold Machine.channel0
  split
  · split
    · exact hP.disable .ch0 u hu
    · exact (hP.program .ch0 f0 false u hu).andThen fun _ _ hv => hv
  · exact hu

/-- Branch A writes the PLL frequency of the search for channel 1 into PLLB (43_controller.md R192). -/
theorem branchA (hc : c1 = true) (hf : f1 ≠ 0) (f2 : Nat) {u : State} (hu : P u) :
    (branchA f1 f2 u).Spec (fun _ => P) (fun _ => P) := by
  have hch1 := (hP.program .ch1 f1 false u hu).and (programChannel_frame .ch1 f1 false u)
  refine (hch1.mono (fun _ _ hv => hv) fun _ _ hv => hv.1).andThen fun res v hv => ?_
  obtain ⟨hv, -, -, hres, -⟩ := hv
  cases res with
  | none => exact hv
  | some pll =>
    obtain ⟨d, r, hs⟩ := hres pll rfl
    exact hP.fromPllb f2 _ (hP.pllb d r pll v hc hf hs hv)

theorem pllBGroup (c2 : Bool) (f2 : Nat) {u : State} (hu : P u) :
    (pllBGroup c1 c2 f1 f2 u).Spec (fun _ => P) (fun _ => P) := by
  unfold Machine.pllBGroup
  split
  · split
    next hf =>
      split
      next hc => exact hP.branchA hc hf f2 hu
      · exact hP.fromPllb f2 u hu
    · split
      · exact (hP.program .ch2 f2 true _ (hP.disable .ch1 u hu)).andThen fun _ _ hv => hv
      · exact hP.disable .ch2 _ (hP.disable .ch1 u hu)
  · exact hu

theorem batchedStrobe (early : Bool) {u : State} (hu : P u) : P (batchedStrobe early u) := by
  unfold Machine.batchedStrobe
  split
  · exact hP.strobe u hu
  · exact hu

end SetFreqKeeps

/-- SET_FREQ keeps what its parts keep, from the latched state on, whether it ends or raises. -/
theorem SetFreqKeeps.setFreq {f0 f1 f2 : BitVec 32} {s : State} {P : State → Prop}
    (hP : SetFreqKeeps (changed .ch1 f1 s) f1.toNat P) (h : P (latch f0 f1 f2 s)) :
    (setFreq f0 f1 f2 s).Spec (fun _ => P) (fun _ => P) :=
  (hP.channel0 _ _ h).andThen fun _ _ hu => (hP.pllBGroup _ _ hu).andThen fun early _ hv =>
    hP.batchedStrobe early hv

/-- PLLB is as before, or holds the PLL frequency of the search for a changed, enabled channel 1
(10_state.md R29). -/
def PllbFrom (c1 : Bool) (f1 : Nat) (s u : State) : Prop :=
  u.pllb = s.pllb ∨ (c1 = true ∧ f1 ≠ 0 ∧
    ∃ d r pll, search f1 = .ok d r pll ∧ u.pllb = BitVec.ofNat 32 pll)

theorem PllbFrom.of_eq {c1 : Bool} {f1 : Nat} {s u v : State} (h : PllbFrom c1 f1 s u)
    (he : v.pllb = u.pllb) : PllbFrom c1 f1 s v := by
  unfold PllbFrom
  rwa [he]

theorem setFreqKeeps_frame (c1 : Bool) (f1 : Nat) (s : State) :
    SetFreqKeeps c1 f1 fun u => Frame s u ∧ PllbFrom c1 f1 s u where
  disable k u hu := ⟨hu.1.trans (.of_disableChannel k u), hu.2.of_eq rfl⟩
  program k f immediate u hu := (programChannel_frame k f immediate u).mono
    (fun _ _ hv => ⟨hu.1.trans hv.1, hu.2.of_eq hv.2.1⟩) fun _ _ hv => hv.1 ▸ hu
  fromPllb f2 u hu := (channel2FromPllb_frame f2 u).mono
    (fun _ _ hv => ⟨hu.1.trans hv.1, hu.2.of_eq hv.2.1⟩) fun _ _ hv => hv.1 ▸ hu
  pllb d r pll u hc hf hs hu := ⟨hu.1.trans (.of_pllb _ u), .inr ⟨hc, hf, d, r, pll, hs, rfl⟩⟩
  strobe u hu := ⟨hu.1.trans (.of_strobe u), hu.2.of_eq rfl⟩

/-- What SET_FREQ leaves alone once the requests are latched, ending or raising. -/
theorem setFreq_frame (f0 f1 f2 : BitVec 32) (s : State) :
    (setFreq f0 f1 f2 s).Spec
      (fun _ u => Frame (latch f0 f1 f2 s) u ∧
        PllbFrom (changed .ch1 f1 s) f1.toNat (latch f0 f1 f2 s) u)
      (fun _ u => Frame (latch f0 f1 f2 s) u ∧
        PllbFrom (changed .ch1 f1 s) f1.toNat (latch f0 f1 f2 s) u) :=
  (setFreqKeeps_frame _ _ _).setFreq ⟨.refl _, .inl rfl⟩

end Sys2Proof.Machine

/-! ### Legal values of DIV and PLLB -/

namespace Sys2Proof.Machine

theorem pllbLegal_search {f d r pll : Nat} (h : search f = .ok d r pll) :
    PllbLegal (BitVec.ofNat 32 pll) := by
  obtain ⟨-, hlo, hhi⟩ := search_ok_bounds h
  right
  rw [BitVec.toNat_ofNat, Nat.mod_eq_of_lt (by omega)]
  exact ⟨hlo, hhi⟩

theorem valuesLegal_disableChannel {s : State} (k : Channel) (h : ValuesLegal s) :
    ValuesLegal (disableChannel k s) := ⟨(Frame.of_disableChannel k s).div h.1, h.2⟩

theorem body_keepsValuesLegal (i : Instr) {s : State} (h : ValuesLegal s) :
    (body i s).Spec (fun _ => ValuesLegal) (fun _ => ValuesLegal) := by
  by_cases hi : Claims.IsPureCodec i
  · refine (body_pureCodec hi s).mono ?_ ?_ <;> rintro _ _ ⟨log, rfl⟩ <;> exact h
  cases i with
  | encPll | encMsInt | encMsFrac => exact absurd trivial hi
  | init p0 p1 p2 =>
    exact valuesLegal_disableChannel .ch2 (valuesLegal_disableChannel .ch1
      (valuesLegal_disableChannel .ch0 h))
  | setXtal x rst =>
    rcases setXtal_cases x rst s with ⟨-, e⟩ | ⟨-, e⟩ <;> rw [body, e]
    · exact h
    · cases rst <;> exact h
  | setFreq f0 f1 f2 =>
    have key {u : State} (hu : Frame (latch f0 f1 f2 s) u ∧
        PllbFrom (changed .ch1 f1 s) f1.toNat (latch f0 f1 f2 s) u) : ValuesLegal u := by
      obtain ⟨hframe, hpllb | ⟨-, -, d, r, pll, hs, hpllb⟩⟩ := hu
      · exact ⟨hframe.div h.1, hpllb ▸ h.2⟩
      · exact ⟨hframe.div h.1, hpllb ▸ pllbLegal_search hs⟩
    exact (setFreq_frame f0 f1 f2 s).mono (fun _ _ => key) fun _ _ => key
  | disable ch => exact withSel_spec (fun _ => h) fun k _ => valuesLegal_disableChannel k h

end Sys2Proof.Machine

namespace Sys2Proof.Proofs

open Sys2Proof.Machine

/-- Settles O24, by the search's evened quotient against the ceiling. -/
theorem searchResultRange : Obligations.SearchResultRange := by
  intro f d r pll _ h
  obtain ⟨hd6, hd900, heven, hr, -⟩ := search_ok h
  obtain ⟨hprod, hlo, hhi⟩ := search_ok_bounds h
  exact ⟨hd6, hd900, heven, hr, hlo, hhi, hprod⟩

/-- Settles O46: reset clears DIV and PLLB, and the body of each command keeps their legal values. -/
theorem stepKeepsValuesLegal : Obligations.StepKeepsValuesLegal := by
  intro s t hs h
  rcases step_cases h with ⟨-, rfl⟩ | ⟨rest, -, rfl⟩ | ⟨w, rest, -, ⟨i, -, hi⟩ | ⟨r, -, hr⟩⟩
  · exact hs
  · exact ⟨fun k => .inl (PerChannel.get_all k 0), .inl rfl⟩
  · obtain ⟨u, flt, rfl, rfl | rfl⟩ := exec_next hi
    · exact hs
    · exact (body_keepsValuesLegal i (s := { s with port := rest, pc := s.pc + 1 }) hs).state
  · obtain ⟨flt, rfl⟩ := execIllegal_next hr
    exact hs

/-- Settles O41: SET_XTAL clears FV of all three channels. -/
theorem setXtalInvalidatesEveryChannel : Obligations.SetXtalInvalidatesEveryChannel := by
  intro x rst s hv hx
  rcases setXtal_cases x rst s with ⟨h0, -⟩ | ⟨-, hd⟩
  · exact absurd h0 hx
  · refine ⟨_, runCommand_done _ hv hd, fun k f => ?_⟩
    cases rst <;> simp [changed]

end Sys2Proof.Proofs

/-! ### A SET_FREQ that requests what is latched -/

namespace Sys2Proof.Machine

/-- A command that leaves the block healthy ran to its end. -/
theorem exec_next_healthy {i : Instr} {s t : State} (h : exec i s = .next t)
    (ht : t.flt.v = false) : body i s = .done () t := by
  rw [exec_eq_runCommand] at h
  rcases runCommand_cases i.opcode.byte (body i) s with
      ⟨hv, hr⟩ | ⟨-, u, hd, hr⟩ | ⟨-, c, u, -, hr⟩ <;> rw [hr] at h <;> cases h
  · exact absurd ht (by simp [hv])
  · exact hd
  · cases ht

/-- R34, R189: with all three channels unchanged, SET_FREQ goes through no branch and owes no strobe. -/
theorem setFreq_latched {f0 f1 f2 : BitVec 32} {s : State} (hf : s.f = ⟨f0, f1, f2⟩)
    (hfv : s.fv = .all true) :
    setFreq f0 f1 f2 s = .done () { s with owed := false, diag := 0 } := by
  have hl : latch f0 f1 f2 s = { s with owed := false, diag := 0 } := by
    unfold latch
    rw [← hf, setAllFv, ← hfv]
    rfl
  have hc (k : Channel) (f : BitVec 32) (h : s.f.get k = f) : changed k f s = false := by
    simp [changed, hfv, h]
  have h0 := hc .ch0 f0 (by rw [hf]; rfl)
  have h1 := hc .ch1 f1 (by rw [hf]; rfl)
  have h2 := hc .ch2 f2 (by rw [hf]; rfl)
  simp [setFreq, h0, h1, h2, channel0, pllBGroup, batchedStrobe, hl]

end Sys2Proof.Machine

namespace Sys2Proof.Proofs

open Sys2Proof.Machine

/-- Settles O39: the first SET_FREQ ran to its end, so its requests are the latched ones. -/
theorem repeatedSetFreqEmitsNothing : Obligations.RepeatedSetFreqEmitsNothing := by
  intro f0 f1 f2 s t h ht
  have hd : setFreq f0 f1 f2 s = .done () t := exec_next_healthy h ht
  have hframe := setFreq_frame f0 f1 f2 s
  rw [hd] at hframe
  exact runCommand_done _ ht (setFreq_latched hframe.1.f hframe.1.fv)

/-- Settles O45, command by command: what the body of each leaves alone. -/
theorem onlyTheNamedCommandsWriteAField : Obligations.OnlyTheNamedCommandsWriteAField := by
  intro i s t h
  obtain ⟨u, flt, rfl, rfl | rfl⟩ := exec_next h
  · simp
  by_cases hi : Claims.IsPureCodec i
  · obtain ⟨log, hl⟩ := (body_pureCodec hi s).state
    simp [hl]
  cases i with
  | encPll | encMsInt | encMsFrac => exact absurd trivial hi
  | init p0 p1 p2 => simp [body, Ran.state, initBlock, Claims.IsController]
  | setXtal x rst =>
    rcases setXtal_cases x rst s with ⟨-, hr⟩ | ⟨-, hd⟩
    · simp [body, hr, Ran.state]
    · cases rst <;> simp [body, hd, Ran.state, Claims.IsController]
  | setFreq f0 f1 f2 =>
    obtain ⟨hframe, hpllb⟩ := (setFreq_frame f0 f1 f2 s).state
    have hch1 : (setFreq f0 f1 f2 s).state.pllb ≠ s.pllb → f1 ≠ 0 ∧ changed .ch1 f1 s = true := by
      intro hne
      obtain ⟨hc, hf, -⟩ := hpllb.resolve_left hne
      exact ⟨by rintro rfl; exact hf rfl, hc⟩
    simpa [body, Claims.IsController, hframe.xtal, hframe.pwr, hframe.port, hframe.pc,
      hframe.params] using hch1
  | disable ch =>
    cases hsel : Channel.ofSel? ch.toNat <;> simp [body, hsel, withSel, Ran.state]

end Sys2Proof.Proofs

/-! ### Reading a block back -/

namespace Sys2Proof.Machine

theorem register_succ (reg : Byte) (i : Nat) :
    reg + BitVec.ofNat 8 (i + 1) = reg + 1 + BitVec.ofNat 8 i := by
  rw [BitVec.ofNat_add, BitVec.add_comm (BitVec.ofNat 8 i), ← BitVec.add_assoc]
  rfl

/-- Each byte of a burst stands in its own register. -/
theorem Image.read_writeAll (m : Image) (reg : Byte) {vs : List Byte} (hl : vs.length ≤ 256)
    {i : Nat} (hi : i < vs.length) :
    (m.writeAll reg vs).read (reg + BitVec.ofNat 8 i).toNat = some vs[i] := by
  induction vs generalizing m reg i with
  | nil => cases hi
  | cons v rest ih =>
    rw [List.length_cons] at hl hi
    cases i with
    | zero =>
      rw [Image.writeAll, Image.read_writeAll_other]
      · simp [Image.read_write_same]
      · intro j hj
        rw [← register_succ, BitVec.toNat_add, BitVec.toNat_add, BitVec.toNat_ofNat,
          BitVec.toNat_ofNat]
        omega
    | succ i =>
      rw [register_succ]
      exact ih (m.write reg.toNat v) (reg + 1) (by omega) (by omega)

theorem readBlock_burst (reg : Byte) {vs : List Byte} (h : vs.length = 8) (s : State) :
    (burst reg vs s).readBlock reg = vs.map some := by
  refine List.ext_getElem (by simp [State.readBlock, h]) fun i h1 h2 => ?_
  have := Image.read_writeAll (imageOf s.log) reg (vs := vs) (by omega) (i := i) (by simpa using h2)
  simpa [State.readBlock, State.readReg, imageOf_append, Image.apply] using this

theorem readReg_single (reg v : Byte) (s : State) : (single reg v s).readReg reg.toNat = some v := by
  simp [State.readReg, imageOf_append, Image.apply, Image.read_write_same]

/-- A transaction in one block leaves the registers of the others alone. -/
theorem readReg_emit_other {s : State} (hw : s.params.regMap.wf = true) {b c : Block} (hbc : c ≠ b)
    {t : Transaction} (ht : t.InBlock s.params.regMap b) {a : Nat} (ha : c.Has s.params.regMap a) :
    (emit t s).readReg a = s.readReg a := by
  simpa [State.readReg, imageOf_append] using read_apply_other hw hbc ht (imageOf s.log) ha

theorem readBlock_enable {s : State} (hw : s.params.regMap.wf = true) (k : Channel) :
    (enable k s).readBlock (msBase k s) = s.readBlock (msBase k s) :=
  readBlock_congr (Block.fits hw (.ms k)) fun _ h1 h2 =>
    readReg_emit_other hw (b := .ctrl k) (c := .ms k) (by simp)
      (.inl ⟨0, enableByte k s, Nat.one_pos, by simp [Block.base, ctrlReg]⟩) ⟨h1, h2⟩

end Sys2Proof.Machine

/-! ### Truthful divider caches -/

namespace Sys2Proof.Machine

/-- `CacheTruthful` for one channel. -/
def TruthfulAt (k : Channel) (s : State) : Prop :=
  s.div.get k ≠ 0 →
    s.readBlock (msBase k s) =
      (pBlock (pWords (s.div.get k).toNat 0 1) (rCode (s.rsh.get k).toNat s)).map some ∧
    s.readReg (ctrlReg k s).toNat = some (enableByte k s)

theorem cacheTruthful_iff (s : State) : CacheTruthful s ↔ ∀ k, TruthfulAt k s := Iff.rfl

theorem truthfulAt_of_div_zero {k : Channel} {s : State} (h : s.div.get k = 0) : TruthfulAt k s :=
  fun hne => absurd h hne

/-- A channel's cache stays truthful while the cache, PWR and the channel's own registers keep their
values. -/
theorem TruthfulAt.congr {k : Channel} {s s' : State} (h : TruthfulAt k s)
    (hw : s.params.regMap.wf = true) (hparams : s'.params = s.params) (hpwr : s'.pwr = s.pwr)
    (hdiv : s'.div.get k = s.div.get k) (hrsh : s'.rsh.get k = s.rsh.get k)
    (hreg : ∀ c a, c = .ctrl k ∨ c = .ms k → Block.Has s.params.regMap c a →
      s'.readReg a = s.readReg a) : TruthfulAt k s' := by
  intro hne
  obtain ⟨hms, hctrl⟩ := h (hdiv ▸ hne)
  have hblock : s'.readBlock (msBase k s) = s.readBlock (msBase k s) :=
    readBlock_congr (Block.fits hw (.ms k)) fun a h1 h2 => hreg (.ms k) a (.inr rfl) ⟨h1, h2⟩
  have hbyte : s'.readReg (ctrlReg k s).toNat = s.readReg (ctrlReg k s).toNat :=
    hreg (.ctrl k) _ (.inl rfl) ⟨le_rfl, Nat.lt_succ_self _⟩
  have hbase : msBase k s' = msBase k s := by rw [msBase, hparams, msBase]
  have hcreg : ctrlReg k s' = ctrlReg k s := by rw [ctrlReg, hparams, ctrlReg]
  refine ⟨?_, ?_⟩
  · rw [hbase, hblock, hms, hdiv, hrsh, rCode, rCode, hparams]
  · rw [hcreg, hbyte, hctrl, enableByte, enableByte, hpwr]

/-- Work on other channels keeps a channel's cache truthful. -/
theorem TruthfulAt.of_footprint {K : Channel → Prop} {k : Channel} {s s' : State}
    (h : TruthfulAt k s) (hw : s.params.regMap.wf = true) (hf : Footprint K s s') (hk : ¬ K k) :
    TruthfulAt k s' :=
  h.congr hw hf.params hf.pwr (hf.cache k hk).1 (hf.cache k hk).2 fun c a hc ha =>
    hf.readReg_eq hw (c := c) (by rcases hc with rfl | rfl <;> exact hk) ha

/-- A burst to a PLL block keeps every channel's cache truthful. -/
theorem TruthfulAt.of_pllBurst {k : Channel} {s : State} (h : TruthfulAt k s)
    (hw : s.params.regMap.wf = true) (p : Pll) {vs : List Byte} (hl : vs.length = 8) :
    TruthfulAt k (burst (pllBase p s) vs s) :=
  h.congr hw rfl rfl rfl rfl fun c _ hc ha => readReg_emit_other hw (b := .pll p) (c := c)
    (by rcases hc with rfl | rfl <;> simp) (.inr ⟨vs, hl, rfl⟩) ha

/-- The cache gate's miss writes the block, the enable byte and the cache together (42_search.md R156). -/
theorem truthfulAt_gateMiss {s : State} (hw : s.params.regMap.wf = true) (k : Channel) {d r : Nat}
    (hd : d ≤ 900) (hr : r ≤ 7) :
    let u := enable k (burst (msBase k s) (pBlock (pWords d 0 1) (rCode r s)) s)
    TruthfulAt k { u with
      div := u.div.set k (BitVec.ofNat 10 d), rsh := u.rsh.set k (BitVec.ofNat 3 r) } := by
  intro u _
  have hblock : u.readBlock (msBase k s) = (pBlock (pWords d 0 1) (rCode r s)).map some := by
    rw [← readBlock_burst (msBase k s) (length_pBlock _ _) s]
    exact readBlock_enable (s := burst (msBase k s) _ s) hw k
  have hbyte : u.readReg (ctrlReg k s).toNat = some (enableByte k s) := readReg_single _ _ _
  have hdn : (BitVec.ofNat 10 d).toNat = d := Nat.mod_eq_of_lt (by omega)
  have hrn : (BitVec.ofNat 3 r).toNat = r := Nat.mod_eq_of_lt (by omega)
  simp only [PerChannel.get_set_same, hdn, hrn]
  exact ⟨hblock, hbyte⟩

/-- The cache gate keeps its channel's cache truthful: a hit writes nothing. -/
theorem cacheGate_truthfulAt {k : Channel} {s : State} (h : TruthfulAt k s)
    (hw : s.params.regMap.wf = true) {f d r pll : Nat} (hs : search f = .ok d r pll)
    (immediate : Bool) :
    (cacheGate k d r immediate s).Spec (fun _ => TruthfulAt k) (fun _ => TruthfulAt k) := by
  obtain ⟨hd6, hd900, heven, hr7, -⟩ := search_ok hs
  rcases cacheGate_cases hd6 hd900 heven hr7 k immediate s with ⟨-, -, c⟩ | ⟨-, c⟩
  · rw [c]; exact h
  · have hmiss := truthfulAt_gateMiss hw k hd900 hr7
    rw [c]
    cases immediate
    · exact hmiss
    · exact hmiss.of_footprint hw (K := fun _ => False) (.of_strobe _) id

/-- One channel's program raises before any write, disables the channel, or writes the PLL block and goes
through the cache gate. -/
theorem programChannel_cases (k : Channel) (f : Nat) (immediate : Bool) (s : State) :
    (∃ c, programChannel k f immediate s = .raised c s) ∨
    programChannel k f immediate s = .done none (setDiag k (disableChannel k s)) ∨
    ∃ d r pll vs, search f = .ok d r pll ∧ vs.length = 8 ∧
      programChannel k f immediate s =
        (cacheGate k d r immediate (burst (pllBase k.pll s) vs s)).andThen
          fun _ u => .done (some pll) u := by
  unfold programChannel
  cases hs : search f with
  | underflow => exact .inr (.inl rfl)
  | rTooLarge => exact .inl ⟨_, rfl⟩
  | ok d r pll =>
    by_cases hx : s.xtal = 0
    · exact .inl ⟨_, guardFault_of hx _ _ _⟩
    simp only [guardFault_of_not hx]
    generalize pllParams s.xtal.toNat pll = mn
    rcases encPll_cases k.pll mn.1 mn.2 Config.denom s with
        ⟨-, e⟩ | ⟨-, -, -, e⟩ | ⟨-, -, -, -, e⟩ | ⟨-, -, -, -, -, e⟩ <;> rw [e]
    · exact .inl ⟨_, rfl⟩
    · exact .inl ⟨_, rfl⟩
    · exact .inl ⟨_, rfl⟩
    · exact .inr (.inr ⟨d, r, pll, _, rfl, length_pBlock _ _, rfl⟩)

/-- One channel's program keeps its own cache truthful. -/
theorem programChannel_truthfulAt {k : Channel} {s : State} (h : TruthfulAt k s)
    (hw : s.params.regMap.wf = true) (f : Nat) (immediate : Bool) :
    (programChannel k f immediate s).Spec (fun _ => TruthfulAt k) (fun _ => TruthfulAt k) := by
  rcases programChannel_cases k f immediate s with ⟨c, e⟩ | e | ⟨d, r, pll, vs, hs, hl, e⟩ <;> rw [e]
  · exact h
  · exact truthfulAt_of_div_zero (PerChannel.get_set_same _ _ _)
  · exact (cacheGate_truthfulAt (h.of_pllBurst hw k.pll hl) hw hs immediate).andThen
      fun _ _ hu => hu

/-- R35 (c) as the parts of the controller keep it: the register blocks are apart, and every divider
cache is truthful. -/
structure CachesHold (s : State) : Prop where
  wf : s.params.regMap.wf = true
  truthful : ∀ k, TruthfulAt k s

namespace CachesHold

/-- Work on one channel keeps the invariant if it keeps that channel's cache truthful. -/
theorem of_only {k : Channel} {s s' : State} (h : CachesHold s) (hf : Footprint (Only k) s s')
    (hk : TruthfulAt k s') : CachesHold s' := by
  refine ⟨by rw [hf.params]; exact h.wf, fun j => ?_⟩
  by_cases hj : j = k
  · exact hj ▸ hk
  · exact (h.truthful j).of_footprint h.wf hf hj

theorem strobe {s : State} (h : CachesHold s) : CachesHold (strobe s) :=
  ⟨h.wf, fun k => (h.truthful k).of_footprint h.wf (K := fun _ => False) (.of_strobe s) id⟩

theorem disableChannel {s : State} (h : CachesHold s) (k : Channel) :
    CachesHold (disableChannel k s) :=
  h.of_only (k := k) (.of_disableChannel (K := Only k) rfl s)
    (truthfulAt_of_div_zero (PerChannel.get_set_same _ _ _))

end CachesHold

theorem setFreqKeeps_cachesHold (c1 : Bool) (f1 : Nat) : SetFreqKeeps c1 f1 CachesHold where
  disable k _ hu := hu.disableChannel k
  program k f immediate u hu :=
    ((programChannel_footprint k f immediate u).and
      (programChannel_truthfulAt (hu.truthful k) hu.wf f immediate)).mono
      (fun _ _ hv => hu.of_only hv.1 hv.2) fun _ _ hv => hv.1 ▸ hu
  fromPllb f2 u hu := (channel2FromPllb_footprint f2 u).mono
    (fun _ _ hv => hu.of_only hv.1 (truthfulAt_of_div_zero hv.2)) fun _ _ hv => hv ▸ hu
  pllb _ _ _ _ _ _ _ hu := ⟨hu.wf, hu.truthful⟩
  strobe _ hu := hu.strobe

/-- INIT may change PWR, for it clears every divider cache. -/
theorem cachesHold_initBlock (p0 p1 p2 : BitVec 2) {s : State} (hw : s.params.regMap.wf = true) :
    CachesHold (initBlock p0 p1 p2 s) :=
  ⟨hw, fun k => truthfulAt_of_div_zero (by cases k <;> rfl)⟩

theorem body_keepsCachesHold {i : Instr} (hi : Claims.IsController i) {s : State}
    (h : CachesHold s) : (body i s).Spec (fun _ => CachesHold) (fun _ => CachesHold) := by
  cases i with
  | init p0 p1 p2 => exact cachesHold_initBlock p0 p1 p2 h.wf
  | setXtal x rst =>
    have hx : CachesHold (setAllFv false { s with xtal := x }) := ⟨h.wf, h.truthful⟩
    rcases setXtal_cases x rst s with ⟨-, e⟩ | ⟨-, e⟩ <;> rw [body, e]
    · exact h
    · cases rst
      · exact hx
      · exact hx.strobe
  | setFreq f0 f1 f2 => exact (setFreqKeeps_cachesHold _ _).setFreq ⟨h.wf, h.truthful⟩
  | encPll | encMsInt | encMsFrac | disable => exact hi.elim

end Sys2Proof.Machine

namespace Sys2Proof.Proofs

open Sys2Proof.Machine

/-- Settles O47: the parts of each controller command keep the caches truthful, channel by channel. -/
theorem controllerKeepsCachesTruthful : Obligations.ControllerKeepsCachesTruthful := by
  intro i s t hi hw hs h
  rw [Params.wf, Bool.and_eq_true, Bool.and_eq_true] at hw
  obtain ⟨⟨hmap, -⟩, -⟩ := hw
  have hcaches : CachesHold s := ⟨hmap, (cacheTruthful_iff s).1 hs⟩
  obtain ⟨u, flt, rfl, rfl | rfl⟩ := exec_next h
  · exact hs
  · exact (cacheTruthful_iff _).2 (body_keepsCachesHold hi hcaches).state.truthful

end Sys2Proof.Proofs

/-! ### What a step adds to the log -/

namespace Sys2Proof.Machine

/-- The parameters stay, and the log grows by transactions of the legal forms (20_memory.md R65). -/
structure EmitsLegal (s t : State) : Prop where
  params : t.params = s.params
  log : ∃ ts, t.log = s.log ++ ts ∧ ∀ x ∈ ts, TransactionLegal s.params.regMap x

theorem EmitsLegal.of_eq {s t : State} (hp : t.params = s.params) (hl : t.log = s.log) :
    EmitsLegal s t := ⟨hp, [], by simp [hl], by simp⟩

theorem EmitsLegal.trans {s t u : State} (h : EmitsLegal s t) (g : EmitsLegal t u) :
    EmitsLegal s u := by
  obtain ⟨hp, ts, hts, hleg⟩ := h
  obtain ⟨gp, us, hus, gleg⟩ := g
  rw [hp] at gleg
  exact ⟨gp.trans hp, ts ++ us, by rw [hus, hts, List.append_assoc],
    fun x hx => (List.mem_append.1 hx).elim (hleg x) (gleg x)⟩

theorem Frame.emitsLegal {s t : State} (h : Frame s t) : EmitsLegal s t := ⟨h.params, h.log⟩

theorem encPll_frame (p : Pll) (a b c : Nat) (s : State) :
    (encPll p a b c s).Spec (fun _ => Frame s) (fun _ => Frame s) :=
  guardFault_spec (fun _ => .refl s) fun _ => guardFault_spec (fun _ => .refl s) fun _ =>
    guardFault_spec (fun _ => .refl s) fun _ => Frame.of_pllBurst p _ s (length_pBlock _ _)

theorem encMsInt_frame (k : Channel) (d r : Nat) (s : State) :
    (encMsInt k d r s).Spec (fun _ => Frame s) (fun _ => Frame s) :=
  guardFault_spec (fun _ => .refl s) fun _ => guardFault_spec (fun _ => .refl s) fun _ =>
    Frame.of_msBurst k _ s (length_pBlock _ _)

theorem encMsFrac_frame (k : Channel) (d b c r : Nat) (s : State) :
    (encMsFrac k d b c r s).Spec (fun _ => Frame s) (fun _ => Frame s) :=
  guardFault_spec (fun _ => .refl s) fun _ => guardFault_spec (fun _ => .refl s) fun _ =>
    guardFault_spec (fun _ => .refl s) fun _ => guardFault_spec (fun _ => .refl s) fun _ =>
    Frame.of_singles k _ s (length_pBlock _ _)

/-- INIT writes PWR and the requests, and disables the three channels (43_controller.md R181). -/
theorem initBlock_emitsLegal (p0 p1 p2 : BitVec 2) (s : State) :
    EmitsLegal s (initBlock p0 p1 p2 s) := by
  have hdisable (u : State) :
      Frame u (disableChannel .ch2 (disableChannel .ch1 (disableChannel .ch0 u))) :=
    (Frame.of_disableChannel .ch0 u).trans
      ((Frame.of_disableChannel .ch1 _).trans (.of_disableChannel .ch2 _))
  have hpwr : EmitsLegal s { s with pwr := ⟨p0, p1, p2⟩ } := .of_eq rfl rfl
  exact hpwr.trans ((hdisable _).emitsLegal.trans (.of_eq rfl rfl))

theorem setXtal_emitsLegal (x : BitVec 32) (rst : Bool) (s : State) :
    (setXtal x rst s).Spec (fun _ => EmitsLegal s) (fun _ => EmitsLegal s) := by
  have hset : EmitsLegal s (setAllFv false { s with xtal := x }) := .of_eq rfl rfl
  rcases setXtal_cases x rst s with ⟨-, e⟩ | ⟨-, e⟩ <;> rw [e]
  · exact .of_eq rfl rfl
  · cases rst
    · exact hset
    · exact hset.trans (Frame.of_strobe _).emitsLegal

theorem setFreq_emitsLegal (f0 f1 f2 : BitVec 32) (s : State) :
    (setFreq f0 f1 f2 s).Spec (fun _ => EmitsLegal s) (fun _ => EmitsLegal s) := by
  have hlatch : EmitsLegal s (latch f0 f1 f2 s) := .of_eq rfl rfl
  exact (setFreq_frame f0 f1 f2 s).mono (fun _ _ h => hlatch.trans h.1.emitsLegal)
    fun _ _ h => hlatch.trans h.1.emitsLegal

/-- Every command, ending or raising, emits only transactions of the legal forms. -/
theorem body_emitsLegal (i : Instr) (s : State) :
    (body i s).Spec (fun _ => EmitsLegal s) (fun _ => EmitsLegal s) := by
  have hsame : EmitsLegal s s := .of_eq rfl rfl
  have hframe {m : Ran Unit} (h : m.Spec (fun _ => Frame s) fun _ => Frame s) :
      m.Spec (fun _ => EmitsLegal s) fun _ => EmitsLegal s :=
    h.mono (fun _ _ => Frame.emitsLegal) fun _ _ => Frame.emitsLegal
  cases i with
  | init p0 p1 p2 => exact initBlock_emitsLegal p0 p1 p2 s
  | setXtal x rst => exact setXtal_emitsLegal x rst s
  | setFreq f0 f1 f2 => exact setFreq_emitsLegal f0 f1 f2 s
  | encPll sel a b c =>
    exact withSel_spec (fun _ => hsame) fun p _ => hframe (encPll_frame p _ _ _ s)
  | encMsInt sel d r =>
    exact withSel_spec (fun _ => hsame) fun k _ => hframe (encMsInt_frame k _ _ s)
  | encMsFrac sel d b c r =>
    exact withSel_spec (fun _ => hsame) fun k _ => hframe (encMsFrac_frame k _ _ _ _ s)
  | disable ch =>
    exact withSel_spec (fun _ => hsame) fun k _ => (Frame.of_disableChannel k s).emitsLegal

/-- Every step, whatever the input, emits only transactions of the legal forms. -/
theorem step_emitsLegal {s t : State} (h : step s = .next t) : EmitsLegal s t := by
  rcases step_cases h with ⟨-, rfl⟩ | ⟨rest, -, rfl⟩ | ⟨w, rest, -, ⟨i, -, hi⟩ | ⟨r, -, hr⟩⟩
  · exact .of_eq rfl rfl
  · exact .of_eq rfl rfl
  · have htake : EmitsLegal s { s with port := rest, pc := s.pc + 1 } := .of_eq rfl rfl
    obtain ⟨u, flt, rfl, rfl | rfl⟩ := exec_next hi
    · exact .of_eq rfl rfl
    · exact htake.trans ((body_emitsLegal i _).state.trans (.of_eq rfl rfl))
  · obtain ⟨flt, rfl⟩ := execIllegal_next hr
    exact .of_eq rfl rfl

/-- The transport calls as the rules write them are those of the model (20_memory.md R62, R66). -/
theorem busOps_eq_transportCalls (m : RegMap) (t : Transaction) :
    t.busOps m = Claims.transportCalls m.devAddr t := by
  cases t <;> rfl

theorem busTrace_eq_transportCalls (m : RegMap) (ts : List Transaction) :
    busTrace m ts = ts.flatMap (Claims.transportCalls m.devAddr) :=
  List.flatMap_congr fun t _ => busOps_eq_transportCalls m t

end Sys2Proof.Machine

namespace Sys2Proof.Proofs

open Sys2Proof.Machine

/-- Settles O22: the transactions a step appends are legal for the map, and the map stays. -/
theorem stepWritesOnlyMappedRegisters : Obligations.StepWritesOnlyMappedRegisters := by
  intro s t hs h x hx
  obtain ⟨hparams, ts, hlog, hlegal⟩ := step_emitsLegal h
  rw [hlog] at hx
  rw [hparams]
  exact (List.mem_append.1 hx).elim (hs x) (hlegal x)

/-- Settles O21: what a step emits stands after the old log. -/
theorem stepOnlyAppendsToTheLog : Obligations.StepOnlyAppendsToTheLog := by
  intro s t h
  obtain ⟨-, ts, hlog, -⟩ := step_emitsLegal h
  exact ⟨ts, hlog⟩

/-- Settles O57: the transport calls follow the log, and the register map stays. -/
theorem stepWritesToTheDeviceAddress : Obligations.StepWritesToTheDeviceAddress := by
  intro s t h
  obtain ⟨hparams, ts, hlog, -⟩ := step_emitsLegal h
  refine ⟨ts, hlog, ?_, fun dev hdev => ?_⟩
  · rw [busCalls_of_append hparams hlog, busTrace_eq_transportCalls]
  · rw [← hparams]
    exact beginWrite_mem_busTrace hdev

end Sys2Proof.Proofs

/-! ### The register image and the bytes written -/

namespace Sys2Proof.Machine

/-- A burst that does not pass register 255 sets the registers from its base on, and no other. -/
theorem Image.read_writeAll_eq (m : Image) (reg : Byte) {vs : List Byte}
    (hfit : reg.toNat + vs.length ≤ 256) (a : Nat) :
    (m.writeAll reg vs).read a =
      if reg.toNat ≤ a ∧ a < reg.toNat + vs.length then vs[a - reg.toNat]? else m.read a := by
  have haddr (i : Nat) (hi : i < vs.length) : (reg + BitVec.ofNat 8 i).toNat = reg.toNat + i := by
    rw [BitVec.toNat_add, BitVec.toNat_ofNat]
    omega
  split
  next hin =>
    obtain ⟨i, rfl⟩ := Nat.exists_eq_add_of_le hin.1
    have hi : i < vs.length := by omega
    rw [← haddr i hi, Image.read_writeAll m reg (by omega) hi, haddr i hi, Nat.add_sub_cancel_left,
      List.getElem?_eq_getElem hi]
  next hout =>
    refine Image.read_writeAll_other m reg vs fun i hi => ?_
    rw [haddr i hi]
    omega

/-- R61: from unknown everywhere, every transaction keeps the canonical form. -/
theorem imageOf_wf (log : List Transaction) : Image.wf (imageOf log) := by
  induction log using List.reverseRecOn with
  | nil => exact ⟨.nil, by simp⟩
  | append_singleton log t ih =>
    rw [imageOf_append]
    exact Image.apply_wf ih t

/-- The singles of the model are the rules' singles, each to its base plus its place (41_codec.md R130). -/
theorem zipWith_single_eq_singleList (reg : Byte) (vs : List Byte) :
    (List.range vs.length).zipWith (fun i v => .single (reg + BitVec.ofNat 8 i) v) vs =
      singleList reg vs := by
  induction vs generalizing reg with
  | nil => rfl
  | cons v rest ih =>
    simp only [singleList, List.length_cons, List.range_succ_eq_map, List.zipWith_cons_cons,
      List.zipWith_map_left, Nat.succ_eq_add_one, register_succ, ih]
    rw [show reg + BitVec.ofNat 8 0 = reg from BitVec.add_zero reg]

theorem eightSingles_eq_singleList (reg : Byte) {vs : List Byte} (h : vs.length = 8) :
    Claims.eightSingles reg vs = singleList reg vs := by
  rw [← zipWith_single_eq_singleList, h, Claims.eightSingles]

/-- R70: the drive-power level of 2 bits is added to the base byte without a carry. -/
theorem toNat_enableByte (k : Channel) (s : State) :
    (enableByte k s).toNat = (if k = .ch0 then 0x4C else 0x6C) + (s.pwr.get k).toNat := by
  unfold enableByte
  generalize s.pwr.get k = level
  revert level
  cases k <;> decide

end Sys2Proof.Machine

namespace Sys2Proof.Proofs

open Sys2Proof.Machine

/-- Settles O18: a single is one write, a burst that fits the register space sets its own registers. -/
theorem registerImageAfterATransaction : Obligations.RegisterImageAfterATransaction := by
  intro log reg v vs a
  simp only [imageOf_append, List.foldl_cons, List.foldl_nil, Image.apply]
  refine ⟨Image.read_write _ _ _ _, fun hlen hfit => ?_⟩
  have hread := Image.read_writeAll_eq (imageOf log) reg (vs := vs) (by omega) a
  rwa [hlen] at hread

/-- Settles O19: the eight singles fold over the image as the burst does. -/
theorem burstAndEightSinglesLeaveTheSameImage :
    Obligations.BurstAndEightSinglesLeaveTheSameImage := by
  intro log reg vs hlen
  rw [eightSingles_eq_singleList reg hlen, imageOf_append, imageOf_append, foldl_singleList]
  rfl

/-- Settles O20, by induction on the log from its oldest transaction. -/
theorem imageStaysCanonical : Obligations.ImageStaysCanonical := imageOf_wf

/-- Settles O16: the bytes by definition, their values from the sum. -/
theorem enableByteOfEachChannel : Obligations.EnableByteOfEachChannel := fun s =>
  ⟨rfl, rfl, rfl, toNat_enableByte .ch0 s, toNat_enableByte .ch1 s, toNat_enableByte .ch2 s⟩

/-- Settles O17: the rules' transport calls, at these transactions. -/
theorem transportCallsOfATransaction : Obligations.TransportCallsOfATransaction := by
  intro m reg v v0 v1 v2 v3 v4 v5 v6 v7
  exact ⟨busOps_eq_transportCalls m (.single reg v), busOps_eq_transportCalls m (.burst reg _)⟩

end Sys2Proof.Proofs

/-! ### DISABLE -/

namespace Sys2Proof.Proofs

open Sys2Proof.Machine

/-- Settles O12: the selector names no channel, or the body is the disable of the channel it names. -/
theorem disableCommand : Obligations.DisableCommand := by
  intro ch s
  refine ⟨opcodeOf_encode _, fun hv => ⟨fun hch => ?_, fun k hk => ?_⟩⟩
  · have hbody : body (.disable ch) s = .raised .badSelector s := by
      rw [body, channel_ofSel_none hch, withSel]
    exact runCommand_raised _ hv hbody
  · have hbody : body (.disable ch) s = .done () (disableChannel k s) := by
      rw [body, hk, channel_ofSel_index, withSel]
    exact runCommand_done _ hv hbody

end Sys2Proof.Proofs

/-! ### The fields of a command word -/

namespace Sys2Proof

/-- The bits of the field of width `n` at bit `lo`. -/
def fieldMask (lo n : Nat) : CmdWord := place lo (BitVec.allOnes n)

/-- A field read and put back where it was is the word cut to that field. -/
theorem place_extractLsb' (lo n : Nat) (w : CmdWord) :
    place lo (w.extractLsb' lo n) = w &&& fieldMask lo n := by
  apply BitVec.eq_of_getLsbD_eq
  intro j hj
  simp only [fieldMask, getLsbD_place, BitVec.getLsbD_extractLsb', BitVec.getLsbD_and,
    BitVec.getLsbD_allOnes, hj, decide_true, Bool.true_and]
  by_cases hlo : j < lo
  · simp [hlo]
  · rw [Nat.add_sub_cancel' (Nat.le_of_not_lt hlo)]
    ac_rfl

/-- A flag bit of a word is its field of width 1. -/
theorem ofBool_getLsbD (w : CmdWord) (j : Nat) :
    BitVec.ofBool (w.getLsbD j) = w.extractLsb' j 1 := by
  apply BitVec.eq_of_getLsbD_eq
  intro i hi
  obtain rfl : i = 0 := by omega
  simp

/-! ### A word and the rows of the opcode table (30_encoding.md R93) -/

theorem Opcode.byte_injective {op op' : Opcode} (h : op.byte = op'.byte) : op = op' := by
  have hop := Opcode.ofByte?_byte op
  rw [h, Opcode.ofByte?_byte] at hop
  exact (Option.some.inj hop).symm

/-- The `mask` column is the opcode field and the reserved bits. -/
theorem Opcode.mask_eq (op : Opcode) : op.mask = fieldMask 120 8 ||| op.reservedMask := by
  cases op <;> decide

/-- The `match` column is the opcode, every other bit 0. -/
theorem Opcode.matchWord_eq (op : Opcode) : op.matchWord = place 120 op.byte := by
  cases op <;> decide

theorem Opcode.matchWord_and_reservedMask (op : Opcode) :
    op.matchWord &&& op.reservedMask = 0 := by
  cases op <;> decide

/-- A word matches a row when it has the row's opcode and none of its reserved bits. -/
theorem matchesRow_iff (op : Opcode) (w : CmdWord) :
    w &&& op.mask = op.matchWord ↔ opcodeOf w = op.byte ∧ w &&& op.reservedMask = 0 := by
  have hsplit : w &&& op.mask = place 120 (opcodeOf w) ||| w &&& op.reservedMask := by
    rw [op.mask_eq, BitVec.and_or_distrib_left, opcodeOf, place_extractLsb']
  constructor
  · intro h
    have hres : w &&& op.reservedMask = 0 := by
      have hsub : op.mask &&& op.reservedMask = op.reservedMask := by cases op <;> decide
      rw [← hsub, ← BitVec.and_assoc, h, op.matchWord_and_reservedMask]
    have hplace : place 120 (opcodeOf w) = place 120 op.byte := by
      rw [← op.matchWord_eq, ← h, hsplit, hres]
      exact BitVec.or_zero.symm
    refine ⟨?_, hres⟩
    rw [← extractLsb'_place 120 (opcodeOf w) (by decide), hplace,
      extractLsb'_place 120 op.byte (by decide)]
  · rintro ⟨hop, hres⟩
    rw [hsplit, hop, hres, op.matchWord_eq]
    exact BitVec.or_zero

/-- No two rows match one word. -/
theorem matchesRow_unique {op op' : Opcode} {w : CmdWord} (h : w &&& op.mask = op.matchWord)
    (h' : w &&& op'.mask = op'.matchWord) : op = op' :=
  Opcode.byte_injective (((matchesRow_iff op w).1 h).1.symm.trans ((matchesRow_iff op' w).1 h').1)

/-- A command's word matches its own row. -/
theorem encode_matchesRow (i : Instr) : encode i &&& i.opcode.mask = i.opcode.matchWord := by
  cases i with
  | init => exact Laws.EncodeMatchesRow.init ..
  | setXtal => exact Laws.EncodeMatchesRow.setXtal ..
  | setFreq => exact Laws.EncodeMatchesRow.setFreq ..
  | encPll => exact Laws.EncodeMatchesRow.encPll ..
  | encMsInt => exact Laws.EncodeMatchesRow.encMsInt ..
  | encMsFrac => exact Laws.EncodeMatchesRow.encMsFrac ..
  | disable => exact Laws.EncodeMatchesRow.disable ..

/-! ### Decoding and encoding -/

/-- A word decodes to a command exactly when it matches the command's row and its fields are the
command's operands. -/
theorem decode_eq_instr_iff {w : CmdWord} {i : Instr} :
    decode w = .instr i ↔
      w &&& i.opcode.mask = i.opcode.matchWord ∧ operandsOf i.opcode w = i := by
  constructor
  · intro h
    obtain ⟨op, hop, hres, rfl⟩ := decode_eq_instr h
    rw [operandsOf_opcode]
    exact ⟨(matchesRow_iff op w).2 ⟨Opcode.ofByte?_eq_some hop, hres⟩, rfl⟩
  · rintro ⟨hrow, hops⟩
    obtain ⟨hop, hres⟩ := (matchesRow_iff _ w).1 hrow
    simp only [decode, hop, Opcode.ofByte?_byte, hres, hops, if_true]

/-- A word decodes to some command of an opcode exactly when it matches the opcode's row. -/
theorem exists_decode_iff_matchesRow (op : Opcode) (w : CmdWord) :
    (∃ i, decode w = .instr i ∧ i.opcode = op) ↔ w &&& op.mask = op.matchWord := by
  constructor
  · rintro ⟨i, hi, rfl⟩
    exact (decode_eq_instr_iff.1 hi).1
  · intro h
    have hop := operandsOf_opcode op w
    exact ⟨operandsOf op w, decode_eq_instr_iff.2 (by rw [hop]; exact ⟨h, rfl⟩), hop⟩

/-- A word that matches no row is rejected. -/
theorem decode_rejected {w : CmdWord} (h : ∀ op : Opcode, w &&& op.mask ≠ op.matchWord) :
    ∃ r, decode w = .rejected r := by
  cases hw : decode w with
  | instr i => exact absurd (decode_eq_instr_iff.1 hw).1 (h i.opcode)
  | rejected r => exact ⟨r, rfl⟩

/-- The RST flag of a SET_XTAL word. -/
theorem getLsbD_encode_setXtal (x : BitVec 32) (rst : Bool) :
    (encode (.setXtal x rst)).getLsbD 32 = rst := by
  simp only [encode, operandBits, BitVec.getLsbD_or, getLsbD_place]
  simp

/-- Each operand field of a command's word holds the operand: no other field overlaps it. -/
theorem operandsOf_encode (i : Instr) : operandsOf i.opcode (encode i) = i := by
  cases i <;>
    simp (disch := omega) only [↓getLsbD_encode_setXtal, Instr.opcode, operandsOf, encode, operandBits,
      extractLsb'_or, extractLsb'_place, extractLsb'_place_other, BitVec.or_zero, BitVec.zero_or]

/-- The operand fields of an opcode are the bits outside its mask. -/
theorem operandBits_operandsOf (op : Opcode) (w : CmdWord) :
    operandBits (operandsOf op w) = w &&& ~~~op.mask := by
  cases op <;>
    simp only [operandsOf, operandBits, ofBool_getLsbD, place_extractLsb',
      ← BitVec.and_or_distrib_left] <;>
    exact congrArg (w &&& ·) (by decide)

/-- A word that matches a row is the word of the command its fields give. -/
theorem encode_operandsOf {op : Opcode} {w : CmdWord} (h : w &&& op.mask = op.matchWord) :
    encode (operandsOf op w) = w :=
  calc encode (operandsOf op w)
    _ = place 120 op.byte ||| w &&& ~~~op.mask := by
      rw [encode, operandsOf_opcode, operandBits_operandsOf]
    _ = w &&& op.mask ||| w &&& ~~~op.mask := by rw [h, op.matchWord_eq]
    _ = w := by rw [← BitVec.and_or_distrib_left, BitVec.or_not_self, BitVec.and_allOnes]

end Sys2Proof

namespace Sys2Proof.Proofs

/-- Settles O1: the word matches the command's row, and its fields are the command's operands. -/
theorem decodeEncodeGivesTheCommandBack : Obligations.DecodeEncodeGivesTheCommandBack := fun i =>
  decode_eq_instr_iff.2 ⟨encode_matchesRow i, operandsOf_encode i⟩

/-- Settles O2: the row fixes the bits of its mask, and the operand fields are all the others. -/
theorem encodeDecodeGivesTheWordBack : Obligations.EncodeDecodeGivesTheWordBack := by
  intro w i h
  obtain ⟨hrow, hops⟩ := decode_eq_instr_iff.1 h
  rw [← encode_operandsOf hrow, hops]

end Sys2Proof.Proofs

/-! ### SET_FREQ with nothing requested -/

namespace Sys2Proof.Machine

/-- R199: both channels of PLL B disabled, channel 1 first. -/
theorem disableChannel_ch2_ch1 (s : State) :
    disableChannel .ch2 (disableChannel .ch1 s) =
      { s with
        log := s.log ++ [.single (ctrlReg .ch1 s) 0x80, .single (ctrlReg .ch2 s) 0x80]
        div := ⟨s.div.ch0, 0, 0⟩ } := by
  have hlog : s.log ++ [.single (ctrlReg .ch1 s) 0x80, .single (ctrlReg .ch2 s) 0x80] =
      (disableChannel .ch2 (disableChannel .ch1 s)).log := by
    rw [disableChannel_log, disableChannel_log, List.append_assoc]
    rfl
  rw [hlog]
  rfl

theorem channel0_zero (c0 : Bool) (s : State) :
    channel0 c0 0 s = .done () (if c0 then disableChannel .ch0 s else s) := by
  cases c0 <;> rfl

theorem pllBGroup_zero (c1 c2 : Bool) (s : State) :
    pllBGroup c1 c2 0 0 s =
      .done false (if c1 || c2 then disableChannel .ch2 (disableChannel .ch1 s) else s) := by
  cases c1 <;> cases c2 <;> rfl

theorem batchedStrobe_of_not_owed {early : Bool} {s : State} (h : s.owed = false) :
    batchedStrobe early s = s := by
  simp [batchedStrobe, h]

/-- A SET_FREQ of three zeros disables channel 0 and the PLL-B group as each has changed, and ends with
no strobe: nothing set OWED after the latch. -/
theorem setFreq_zero (s : State) :
    setFreq 0 0 0 s = .done ()
      (let u := if changed .ch0 0 s then disableChannel .ch0 (latch 0 0 0 s) else latch 0 0 0 s
       if changed .ch1 0 s || changed .ch2 0 s then disableChannel .ch2 (disableChannel .ch1 u)
       else u) := by
  have hn : (0 : BitVec 32).toNat = 0 := rfl
  simp only [setFreq, hn, channel0_zero, pllBGroup_zero, andThen_done]
  rw [batchedStrobe_of_not_owed]
  split <;> split <;> rfl

end Sys2Proof.Machine

/-! ### The assembler's cut to fields (30_encoding.md R96) -/

namespace Sys2Proof.Assembler

open Sys2Proof.Machine

/-- Some number of the command is too large for its field (30_encoding.md R91). -/
def Oversized : SourceCmd → Prop
  | .init p0 p1 p2 => 2 ^ 2 ≤ p0 ∨ 2 ^ 2 ≤ p1 ∨ 2 ^ 2 ≤ p2
  | .setXtal x _ => 2 ^ 32 ≤ x
  | .setFreq f0 f1 f2 => 2 ^ 32 ≤ f0 ∨ 2 ^ 32 ≤ f1 ∨ 2 ^ 32 ≤ f2
  | .encPll _ a b c => 2 ^ 32 ≤ a ∨ 2 ^ 32 ≤ b ∨ 2 ^ 32 ≤ c
  | .encMsInt ms d r => 2 ^ 8 ≤ ms ∨ 2 ^ 32 ≤ d ∨ 2 ^ 8 ≤ r
  | .encMsFrac ms d b c r => 2 ^ 8 ≤ ms ∨ 2 ^ 32 ≤ d ∨ 2 ^ 32 ≤ b ∨ 2 ^ 32 ≤ c ∨ 2 ^ 8 ≤ r
  | .disable ch => 2 ^ 8 ≤ ch
  | .allOff => False
  | .setXtalReset x => 2 ^ 32 ≤ x

theorem assemble_oversized {c : SourceCmd} (h : Oversized c) : assemble c = none := by
  refine if_neg fun hw => ?_
  cases c <;>
    simp only [Oversized, SourceCmd.wellFormed, Bool.and_eq_true, decide_eq_true_eq] at h hw <;>
    omega

/-- A number is too large for a field of `n` bits, or it is the value of one. -/
theorem field_cases (n x : Nat) : 2 ^ n ≤ x ∨ ∃ v : BitVec n, v.toNat = x := by
  rcases Nat.lt_or_ge x (2 ^ n) with h | h
  · exact .inr ⟨BitVec.ofNatLT x h, BitVec.toNat_ofNatLT x h⟩
  · exact .inl h

/-- Three numbers against their three fields. -/
theorem fields_cases (n m k x y z : Nat) :
    (2 ^ n ≤ x ∨ 2 ^ m ≤ y ∨ 2 ^ k ≤ z) ∨
    ∃ (u : BitVec n) (v : BitVec m) (w : BitVec k), u.toNat = x ∧ v.toNat = y ∧ w.toNat = z := by
  rcases field_cases n x with h | ⟨u, hu⟩
  · exact .inl (.inl h)
  rcases field_cases m y with h | ⟨v, hv⟩
  · exact .inl (.inr (.inl h))
  rcases field_cases k z with h | ⟨w, hw⟩
  · exact .inl (.inr (.inr h))
  · exact .inr ⟨u, v, w, hu, hv, hw⟩

/-- A command as source text gives it: none for an ENC_PLL whose selector no letter stands for. -/
def source? : Instr → Option SourceCmd
  | .init p0 p1 p2 => some (.init p0.toNat p1.toNat p2.toNat)
  | .setXtal x rst => some (.setXtal x.toNat rst)
  | .setFreq f0 f1 f2 => some (.setFreq f0.toNat f1.toNat f2.toNat)
  | .encPll sel a b c =>
      (Pll.ofSel? sel.toNat).map fun p => .encPll p a.toNat b.toNat c.toNat
  | .encMsInt sel d r => some (.encMsInt sel.toNat d.toNat r.toNat)
  | .encMsFrac sel d b c r => some (.encMsFrac sel.toNat d.toNat b.toNat c.toNat r.toNat)
  | .disable ch => some (.disable ch.toNat)

/-- The letters A and B stand for 0 and 1. -/
theorem sel_of_ofSel? {sel : BitVec 8} {p : Pll} (h : Pll.ofSel? sel.toNat = some p) :
    (sel = 0 ∧ p = .pllA) ∨ (sel = 1 ∧ p = .pllB) := by
  by_cases hn : 1 < sel.toNat
  · rw [pll_ofSel_none hn] at h
    cases h
  · have : sel = 0 ∨ sel = 1 := by bv_omega
    rcases this with rfl | rfl <;> cases h
    · exact .inl ⟨rfl, rfl⟩
    · exact .inr ⟨rfl, rfl⟩

/-- A command's source text assembles to the command. -/
theorem assemble_source {i : Instr} {c : SourceCmd} (h : source? i = some c) :
    assemble c = some i := by
  cases i with
  | encPll sel a b c =>
    obtain ⟨p, hp, rfl⟩ := Option.map_eq_some_iff.1 h
    rcases sel_of_ofSel? hp with ⟨rfl, rfl⟩ | ⟨rfl, rfl⟩ <;>
      simp only [assemble, SourceCmd.wellFormed, BitVec.isLt, decide_true, Bool.and_true, if_true,
        BitVec.ofNat_toNat, BitVec.setWidth_eq]
  | init | setXtal | setFreq | encMsInt | encMsFrac | disable =>
    cases h
    simp only [assemble, SourceCmd.wellFormed, BitVec.isLt, decide_true, Bool.and_true, if_true,
      BitVec.ofNat_toNat, BitVec.setWidth_eq]

end Sys2Proof.Assembler

namespace Sys2Proof.Proofs

open Sys2Proof.Machine Sys2Proof.Assembler

/-- Settles O3: each row of the table is the model's row of its opcode, and a word's opcode byte tells
the rows apart. -/
theorem decodeFollowsTheMaskTable : Obligations.DecodeFollowsTheMaskTable := by
  unfold Obligations.DecodeFollowsTheMaskTable
  intro table
  have hrow : ∀ row ∈ table, row = (row.1, row.1.matchWord, row.1.mask) := by decide
  refine ⟨fun row hmem w => ?_, fun row hmem row' hmem' w h h' => ?_⟩
  · rw [hrow row hmem]
    exact exists_decode_iff_matchesRow row.1 w
  · rw [hrow row hmem] at h ⊢
    rw [hrow row' hmem'] at h' ⊢
    rw [matchesRow_unique h h']

/-- Settles O5: the word is rejected, and a healthy block takes fault entry with its opcode byte. -/
theorem illegalWordFaults : Obligations.IllegalWordFaults := by
  intro s w rest hv hport hrows
  obtain ⟨r, hr⟩ := decode_rejected hrows
  have hop : opcodeOf w = BitVec.ofNat 8 (w.toNat / 2 ^ 120) := by
    rw [opcodeOf, BitVec.extractLsb', Nat.shiftRight_eq_div_pow]
  simp only [step, takeInput_command hport, hr, execIllegal]
  rw [runCommand_raised _ (by exact hv) rfl, hop]
  rfl

/-- Settles O35, by the end of the body: each changed part writes its disables and clears its DIV. -/
theorem allOffWritesOnlyDisables : Obligations.AllOffWritesOnlyDisables := by
  intro s hv
  refine (runCommand_done _ hv (setFreq_zero s)).trans ?_
  dsimp only
  generalize changed .ch0 0 s = c0, (changed .ch1 0 s || changed .ch2 0 s) = group
  cases c0 <;> cases group <;>
    simp only [Bool.false_eq_true, if_true, if_false, List.append_nil,
      disableChannel_ch2_ch1] <;>
    rfl

/-- Settles O6, command by command: a number is too large for its field, or all are values of fields. -/
theorem assemblerRefusesOversizedNumbers : Obligations.AssemblerRefusesOversizedNumbers := by
  refine ⟨fun p0 p1 p2 => ?init, fun x rst => ?setXtal, fun f0 f1 f2 => ?setFreq,
    fun p sel a b c hp => ?encPll, fun ms d r => ?encMsInt, fun ms d b c r => ?encMsFrac,
    fun ch => ?disable, by decide, fun x => rfl⟩
  case init =>
    rcases fields_cases 2 2 2 p0 p1 p2 with h | ⟨q0, q1, q2, rfl, rfl, rfl⟩
    · exact .inl ⟨h, assemble_oversized h⟩
    · exact .inr ⟨q0, q1, q2, rfl, rfl, rfl, assemble_source rfl⟩
  case setXtal =>
    rcases field_cases 32 x with h | ⟨y, rfl⟩
    · exact .inl ⟨h, assemble_oversized h⟩
    · exact .inr ⟨y, rfl, assemble_source rfl⟩
  case setFreq =>
    rcases fields_cases 32 32 32 f0 f1 f2 with h | ⟨g0, g1, g2, rfl, rfl, rfl⟩
    · exact .inl ⟨h, assemble_oversized h⟩
    · exact .inr ⟨g0, g1, g2, rfl, rfl, rfl, assemble_source rfl⟩
  case encPll =>
    rcases fields_cases 32 32 32 a b c with h | ⟨a, b, c, rfl, rfl, rfl⟩
    · exact .inl ⟨h, assemble_oversized h⟩
    · have hsource : source? (.encPll sel a b c) = some (.encPll p a.toNat b.toNat c.toNat) := by
        rcases hp with ⟨rfl, rfl⟩ | ⟨rfl, rfl⟩ <;> rfl
      exact .inr ⟨a, b, c, rfl, rfl, rfl, assemble_source hsource⟩
  case encMsInt =>
    rcases fields_cases 8 32 8 ms d r with h | ⟨ms, d, r, rfl, rfl, rfl⟩
    · exact .inl ⟨h, assemble_oversized h⟩
    · exact .inr ⟨ms, r, d, rfl, rfl, rfl, assemble_source rfl⟩
  case encMsFrac =>
    rcases fields_cases 8 32 32 ms d b with h | ⟨ms, d, b, rfl, rfl, rfl⟩
    · exact .inl ⟨by omega, assemble_oversized (by simp only [Oversized]; omega)⟩
    rcases field_cases 32 c with h | ⟨c, rfl⟩
    · exact .inl ⟨by omega, assemble_oversized (by simp only [Oversized]; omega)⟩
    rcases field_cases 8 r with h | ⟨r, rfl⟩
    · exact .inl ⟨by omega, assemble_oversized (by simp only [Oversized]; omega)⟩
    · exact .inr ⟨ms, r, d, b, c, rfl, rfl, rfl, rfl, rfl, assemble_source rfl⟩
  case disable =>
    rcases field_cases 8 ch with h | ⟨ch, rfl⟩
    · exact .inl ⟨h, assemble_oversized h⟩
    · exact .inr ⟨ch, rfl, assemble_source rfl⟩

/-- Settles O4: nine closed words, each decoded by evaluation. -/
theorem exampleWordsDecode : Obligations.ExampleWordsDecode := by
  unfold Obligations.ExampleWordsDecode
  decide

end Sys2Proof.Proofs

/-! ### The bytes of a parameter block (41_codec.md R121, R122) -/

namespace Sys2Proof.Machine

/-- A byte of a word needs no cut to 8 bits of its own. -/
theorem byteOf_bits (lo n : Nat) : byteOf (bits (lo + 7) lo n) = BitVec.ofNat 8 (n / 2 ^ lo) := by
  apply BitVec.eq_of_toNat_eq
  simp only [byteOf, bits, Nat.add_sub_cancel_left, BitVec.toNat_ofNat, Nat.reduceAdd, Nat.mod_mod]

/-- The block of the model is the table of the rules. -/
theorem pBlock_eq_blockBytes (w : PWords) (rcode : Nat) :
    pBlock w rcode = Claims.blockBytes w.p1 w.p2 w.p3 (byteOf rcode) := by
  have hlow : bits 19 16 w.p2 < 2 ^ 4 := Nat.mod_lt _ (by decide)
  simp only [pBlock, Claims.blockBytes]
  rw [byteOf_bits 8, byteOf_bits 0, byteOf_bits 8, byteOf_bits 0, byteOf_bits 8, byteOf_bits 0,
    ← Nat.shiftLeft_add_eq_or_of_lt hlow, Nat.shiftLeft_eq]
  simp only [byteOf, bits, BitVec.ofNat_or, pow_zero, Nat.div_one]
  rfl

theorem pBlock_pWords (a b c rcode : Nat) :
    pBlock (pWords a b c) rcode = Claims.fracBytes a b c (byteOf rcode) := by
  rw [pBlock_eq_blockBytes, pWords_p1, pWords_p2, pWords_p3, Claims.fracBytes]

theorem byteOf_rCode (r : Nat) (s : State) : byteOf (rCode r s) = Claims.rcode r s := by
  rw [rCode, Nat.shiftLeft_eq, byteOf, Claims.rcode]

/-- R123. -/
theorem pWords_integer (d : Nat) : pWords d 0 1 = ⟨128 * d - 512, 0, 1⟩ := rfl

/-- R124: a whole part of the fraction b / c counts as one more in a. -/
theorem pWords_carry (a b : Nat) {c : Nat} (hc : 1 ≤ c) :
    pWords a (b + c) c = pWords (a + 1) b c := by
  have hquot : 128 * (b + c) / c = 128 * b / c + 128 := by
    rw [Nat.mul_add, Nat.add_mul_div_right _ _ hc]
  have hp1 : (pWords a (b + c) c).p1 = (pWords (a + 1) b c).p1 := by
    rw [pWords_p1, pWords_p1, hquot]
    omega
  have hp2 : (pWords a (b + c) c).p2 = (pWords (a + 1) b c).p2 := by
    rw [pWords_p2, pWords_p2, Nat.mul_add, Nat.add_mul_mod_self_right]
  exact congrArg₂ (PWords.mk · · c) hp1 hp2

/-! ### Reading the P-words back (41_codec.md R124) -/

/-- Two bytes below the bits `x` of a P-word. -/
theorem or_bytes_eq_sum (x : Nat) (u v : Byte) :
    x <<< 16 ||| u.toNat <<< 8 ||| v.toNat = 65536 * x + 256 * u.toNat + v.toNat := by
  have hu : u.toNat <<< 8 < 2 ^ 16 := by
    rw [Nat.shiftLeft_eq]
    omega
  rw [← Nat.shiftLeft_add_eq_or_of_lt hu, Nat.shiftLeft_eq, Nat.shiftLeft_eq,
    show x * 2 ^ 16 + u.toNat * 2 ^ 8 = (256 * x + u.toNat) <<< 8 by rw [Nat.shiftLeft_eq]; omega,
    ← Nat.shiftLeft_add_eq_or_of_lt v.isLt, Nat.shiftLeft_eq]
  omega

/-- P1's top bits share a byte with the R-divider code: neither field reaches into the other. -/
theorem bits_rDividerByte {x r rPos : Nat} (hx : x < 4) (hr : r ≤ 7) (hlo : 2 ≤ rPos)
    (hhi : rPos ≤ 5) :
    bits 1 0 (BitVec.ofNat 8 x ||| byteOf (r <<< rPos)).toNat = x ∧
    bits (rPos + 2) rPos (BitVec.ofNat 8 x ||| byteOf (r <<< rPos)).toNat = r := by
  have hpow : 2 ^ 2 ≤ 2 ^ rPos := Nat.pow_le_pow_right (by decide) hlo
  have hpow' : 2 ^ rPos ≤ 2 ^ 5 := Nat.pow_le_pow_right (by decide) hhi
  have hvalue : (BitVec.ofNat 8 x ||| byteOf (r <<< rPos)).toNat = 2 ^ rPos * r + x := by
    have hfit : 2 ^ rPos * r ≤ 2 ^ 5 * 7 := Nat.mul_le_mul hpow' hr
    rw [byteOf, ← BitVec.ofNat_or, Nat.lor_comm, ← Nat.shiftLeft_add_eq_or_of_lt (by omega),
      Nat.shiftLeft_eq, Nat.mul_comm, BitVec.toNat_ofNat]
    omega
  rw [hvalue]
  constructor
  · obtain ⟨m, hm⟩ : 4 ∣ 2 ^ rPos := Nat.pow_dvd_pow 2 hlo
    rw [bits, hm, Nat.mul_assoc]
    omega
  · rw [bits, Nat.mul_add_div (by omega), Nat.div_eq_of_lt (by omega), Nat.add_sub_cancel_left]
    omega

/-- P-words that fit their fields are read back from their block. -/
theorem decodeBlock_pBlock {w : PWords} {r rPos : Nat} (h1 : w.p1 < 2 ^ 18) (h2 : w.p2 < 2 ^ 20)
    (h3 : w.p3 < 2 ^ 20) (hr : r ≤ 7) (hlo : 2 ≤ rPos) (hhi : rPos ≤ 5) :
    decodeBlock rPos (pBlock w (r <<< rPos)) =
      some ⟨(w.p1 + 512) / 128, (w.p3 * ((w.p1 + 512) % 128) + w.p2) / 128, w.p3, r⟩ := by
  obtain ⟨htop, hcode⟩ := bits_rDividerByte (Nat.mod_lt (w.p1 / 65536) (by decide)) hr hlo hhi
  have hp1 : 65536 * (w.p1 / 65536 % 4) + 256 * (BitVec.ofNat 8 (w.p1 / 256)).toNat
      + (BitVec.ofNat 8 w.p1).toNat = w.p1 := by
    simp only [BitVec.toNat_ofNat]
    omega
  have hp2 : 65536 * bits 3 0 (BitVec.ofNat 8
        (w.p3 / 65536 % 16 * 16 + w.p2 / 65536 % 16)).toNat
      + 256 * (BitVec.ofNat 8 (w.p2 / 256)).toNat + (BitVec.ofNat 8 w.p2).toNat = w.p2 := by
    simp only [bits, BitVec.toNat_ofNat]
    omega
  have hp3 : 65536 * bits 7 4 (BitVec.ofNat 8
        (w.p3 / 65536 % 16 * 16 + w.p2 / 65536 % 16)).toNat
      + 256 * (BitVec.ofNat 8 (w.p3 / 256)).toNat + (BitVec.ofNat 8 w.p3).toNat = w.p3 := by
    simp only [bits, BitVec.toNat_ofNat]
    omega
  simp only [pBlock_eq_blockBytes, Claims.blockBytes, decodeBlock, or_bytes_eq_sum, htop, hcode,
    hp1, hp2, hp3]

/-- For a proper fraction the P-words give back what they were computed from: `128 b = c q + P2`
with a quotient q below 128. -/
theorem decodeBlock_pWords {a b c r rPos : Nat} (ha : 6 ≤ a) (ha' : a ≤ 900) (hb : b < c)
    (hc : c ≤ 0xFFFFF) (hr : r ≤ 7) (hlo : 2 ≤ rPos) (hhi : rPos ≤ 5) :
    decodeBlock rPos (pBlock (pWords a b c) (r <<< rPos)) = some ⟨a, b, c, r⟩ := by
  obtain ⟨q, hq⟩ : ∃ q, 128 * b / c = q := ⟨_, rfl⟩
  have hq128 : q < 128 := hq ▸ Nat.div_lt_of_lt_mul (by omega)
  have hrem : 128 * b % c < c := Nat.mod_lt _ (by omega)
  have hdiv : c * q + 128 * b % c = 128 * b := hq ▸ Nat.div_add_mod _ _
  have hp1 : (pWords a b c).p1 + 512 = 128 * a + q := by
    rw [pWords_p1, hq]
    omega
  have hwhole : (128 * a + q) / 128 = a := by omega
  have hfrac : (128 * a + q) % 128 = q := by omega
  rw [decodeBlock_pBlock (by omega) (by rw [pWords_p2]; omega) (by rw [pWords_p3]; omega)
    hr hlo hhi, hp1, pWords_p2, pWords_p3, hwhole, hfrac, hdiv,
    Nat.mul_div_cancel_left b (by decide)]

end Sys2Proof.Machine

namespace Sys2Proof.Proofs

open Sys2Proof.Machine

/-- Settles O8: the P-words are read back and divided for b < c, and carry into a for b >= c. -/
theorem parameterBlockRoundTrips : Obligations.ParameterBlockRoundTrips := by
  refine ⟨fun a b c r rPos ha ha' hb hc hr hlo hhi => decodeBlock_pWords ha ha' hb hc hr hlo hhi,
    fun a b c rcode _ hc hcb => ?_⟩
  rw [← pWords_carry a (b - c) hc, Nat.sub_add_cancel hcb]

/-- Settles O7, by the P-words of integer mode in the table of the block. -/
theorem integerModeBlock : Obligations.IntegerModeBlock := by
  intro d rcode
  refine ⟨pWords_integer d, ?_⟩
  simp [pBlock_eq_blockBytes, pWords_integer, Claims.blockBytes, byteOf]

end Sys2Proof.Proofs

/-! ### The outcome of a codec command (41_codec.md R125, R128, R130) -/

namespace Sys2Proof.Machine

theorem exec_done {i : Instr} {s t : State} (hv : s.flt.v = false) (h : body i s = .done () t) :
    exec i s = .next t := (exec_eq_runCommand i s).trans (runCommand_done _ hv h)

theorem exec_raised {i : Instr} {s : State} {c : Cause} (hv : s.flt.v = false)
    (h : body i s = .raised c s) : exec i s = .next (Claims.faulted c.code i.opcode.byte s) :=
  (exec_eq_runCommand i s).trans (runCommand_raised _ hv h)

theorem withSel_none {α β : Type} {sel : Option α} (h : sel = none) (s : State) (f : α → Ran β) :
    withSel sel s f = .raised .badSelector s := by rw [h, withSel]

theorem withSel_some {α β : Type} {sel : Option α} {x : α} (h : sel = some x) (s : State)
    (f : α → Ran β) : withSel sel s f = f x := by rw [h, withSel]

theorem channel_ofSel_of_eq {n : Nat} {k : Channel} (h : n = k.index) :
    Channel.ofSel? n = some k := by rw [h, channel_ofSel_index]

theorem exists_channel_of_le {n : Nat} (h : n ≤ 2) : ∃ k : Channel, n = k.index := by
  have : n = 0 ∨ n = 1 ∨ n = 2 := by omega
  rcases this with rfl | rfl | rfl
  · exact ⟨.ch0, rfl⟩
  · exact ⟨.ch1, rfl⟩
  · exact ⟨.ch2, rfl⟩

/-- The burst of a block, and the eight singles of one, as the rules write them. -/
theorem burst_pBlock (reg : Byte) (a b c rcode : Nat) (s : State) :
    burst reg (pBlock (pWords a b c) rcode) s =
      { s with log := s.log ++ [.burst reg (Claims.fracBytes a b c (byteOf rcode))] } := by
  rw [pBlock_pWords]
  rfl

theorem singles_pBlock (reg : Byte) (a b c rcode : Nat) (s : State) :
    singles reg (pBlock (pWords a b c) rcode) s =
      { s with
        log := s.log ++ Claims.eightSingles reg (Claims.fracBytes a b c (byteOf rcode)) } := by
  rw [singles_eq, pBlock_pWords, eightSingles_eq_singleList reg rfl]

/-- ENC_MS_INT inside its domain. -/
theorem exec_encMsInt_done {sel r : BitVec 8} {d : BitVec 32} {s : State} {k : Channel}
    (hv : s.flt.v = false) (hk : sel.toNat = k.index) (hd : 6 ≤ d.toNat) (hd' : d.toNat ≤ 900)
    (he : d.toNat % 2 = 0) (hr : r.toNat ≤ 7) :
    exec (.encMsInt sel d r) s = .next
      { s with log := s.log ++
          [.burst (msBase k s) (Claims.fracBytes d.toNat 0 1 (Claims.rcode r.toNat s))] } := by
  rw [← byteOf_rCode, ← burst_pBlock]
  exact exec_done hv ((withSel_some (channel_ofSel_of_eq hk) s _).trans
    (encMsInt_done hd hd' he hr k s))

/-- ENC_MS_FRAC inside its domain. -/
theorem exec_encMsFrac_done {sel r : BitVec 8} {d b c : BitVec 32} {s : State} {k : Channel}
    (hv : s.flt.v = false) (hk : sel.toNat = k.index) (hd : 6 ≤ d.toNat) (hd' : d.toNat ≤ 900)
    (hb : b.toNat ≤ 0xFFFFF) (hc : 1 ≤ c.toNat) (hc' : c.toNat ≤ 0xFFFFF) (hr : r.toNat ≤ 7) :
    exec (.encMsFrac sel d b c r) s = .next
      { s with
        log := s.log ++ Claims.eightSingles (msBase k s)
          (Claims.fracBytes d.toNat b.toNat c.toNat (Claims.rcode r.toNat s)) } := by
  rw [← byteOf_rCode, ← singles_pBlock]
  exact exec_done hv ((withSel_some (channel_ofSel_of_eq hk) s _).trans
    (encMsFrac_done hd hd' hb hc hc' hr k s))

end Sys2Proof.Machine

namespace Sys2Proof.Proofs

open Sys2Proof.Machine

/-- Settles O9, by the outcome of `encPll`, one case per check in the order of the clauses. -/
theorem encPllCommand : Obligations.EncPllCommand := by
  intro sel a b c s
  refine ⟨opcodeOf_encode _, fun hv => ⟨fun hsel => ?_, fun p hp => ?_⟩⟩
  · have hbody : body (.encPll sel a b c) s = .raised .badSelector s :=
      withSel_none (pll_ofSel_none hsel) s _
    exact exec_raised hv hbody
  have hsel : Pll.ofSel? sel.toNat = some p := by
    rcases hp with ⟨rfl, rfl⟩ | ⟨rfl, rfl⟩ <;> rfl
  have hbody : body (.encPll sel a b c) s = encPll p a.toNat b.toNat c.toNat s :=
    withSel_some hsel s _
  rcases encPll_cases p a.toNat b.toNat c.toNat s with
    ⟨ha, e⟩ | ⟨ha, ha', hb, e⟩ | ⟨ha, ha', hb, hc, e⟩ | ⟨ha, ha', hb, hc, hc', e⟩
  · exact ⟨fun _ => exec_raised hv (hbody.trans e), fun h => absurd h (by omega)⟩
  · exact ⟨fun h => absurd h (by omega), fun _ =>
      ⟨fun _ => exec_raised hv (hbody.trans e), fun h => absurd h (by omega)⟩⟩
  · exact ⟨fun h => absurd h (by omega), fun _ => ⟨fun h => absurd h (by omega), fun _ =>
      ⟨fun _ => exec_raised hv (hbody.trans e), fun h => absurd h (by omega)⟩⟩⟩
  · rw [burst_pBlock] at e
    exact ⟨fun h => absurd h (by omega), fun _ => ⟨fun h => absurd h (by omega), fun _ =>
      ⟨fun h => absurd h (by omega), fun _ => exec_done hv (hbody.trans e)⟩⟩⟩

/-- Settles O10, by the outcome of `encMsInt`, check by check. -/
theorem encMsIntCommand : Obligations.EncMsIntCommand := by
  intro sel d r s
  refine ⟨opcodeOf_encode _, fun hv => ⟨fun hsel => ?_, fun k hk => ?_⟩⟩
  · have hbody : body (.encMsInt sel d r) s = .raised .badSelector s :=
      withSel_none (channel_ofSel_none hsel) s _
    exact exec_raised hv hbody
  have hbody : body (.encMsInt sel d r) s = encMsInt k d.toNat r.toNat s :=
    withSel_some (channel_ofSel_of_eq hk) s _
  rcases encMsInt_cases k d.toNat r.toNat s with
    ⟨hd, e⟩ | ⟨hd, hd', he, hr, e⟩ | ⟨hd, hd', he, hr, -⟩
  · exact ⟨fun _ => exec_raised hv (hbody.trans e), fun h => absurd h (by omega)⟩
  · exact ⟨fun h => absurd h (by omega), fun _ =>
      ⟨fun _ => exec_raised hv (hbody.trans e), fun h => absurd h (by omega)⟩⟩
  · exact ⟨fun h => absurd h (by omega), fun _ =>
      ⟨fun h => absurd h (by omega), fun _ => exec_encMsInt_done hv hk hd hd' he hr⟩⟩

/-- Settles O11, by the outcome of `encMsFrac`, check by check. -/
theorem encMsFracCommand : Obligations.EncMsFracCommand := by
  intro sel d b c r s
  refine ⟨opcodeOf_encode _, fun hv => ⟨fun hsel => ?_, fun k hk => ?_⟩⟩
  · have hbody : body (.encMsFrac sel d b c r) s = .raised .badSelector s :=
      withSel_none (channel_ofSel_none hsel) s _
    exact exec_raised hv hbody
  have hbody : body (.encMsFrac sel d b c r) s = encMsFrac k d.toNat b.toNat c.toNat r.toNat s :=
    withSel_some (channel_ofSel_of_eq hk) s _
  rcases encMsFrac_cases k d.toNat b.toNat c.toNat r.toNat s with
    ⟨hd, e⟩ | ⟨hd, hd', hb, e⟩ | ⟨hd, hd', hb, hc, e⟩ | ⟨hd, hd', hb, hc, hc', hr, e⟩ |
    ⟨hd, hd', hb, hc, hc', hr, -⟩
  · exact ⟨fun _ => exec_raised hv (hbody.trans e), fun h => absurd h (by omega)⟩
  · exact ⟨fun h => absurd h (by omega), fun _ =>
      ⟨fun _ => exec_raised hv (hbody.trans e), fun h => absurd h (by omega)⟩⟩
  · exact ⟨fun h => absurd h (by omega), fun _ => ⟨fun h => absurd h (by omega), fun _ =>
      ⟨fun _ => exec_raised hv (hbody.trans e), fun h => absurd h (by omega)⟩⟩⟩
  · exact ⟨fun h => absurd h (by omega), fun _ => ⟨fun h => absurd h (by omega), fun _ =>
      ⟨fun h => absurd h (by omega), fun _ =>
        ⟨fun _ => exec_raised hv (hbody.trans e), fun h => absurd h (by omega)⟩⟩⟩⟩
  · exact ⟨fun h => absurd h (by omega), fun _ => ⟨fun h => absurd h (by omega), fun _ =>
      ⟨fun h => absurd h (by omega), fun _ =>
        ⟨fun h => absurd h (by omega), fun _ => exec_encMsFrac_done hv hk hd hd' hb hc hc' hr⟩⟩⟩⟩

/-- Settles O13: both commands end, and a burst and eight singles of one block leave one image. -/
theorem fracWithUnitDenominatorWritesTheIntegerBlock :
    Obligations.FracWithUnitDenominatorWritesTheIntegerBlock := by
  intro sel r d s hv hsel hd hd' he hr
  obtain ⟨k, hk⟩ := exists_channel_of_le hsel
  refine ⟨_, _, exec_encMsInt_done hv hk hd hd' he hr,
    exec_encMsFrac_done hv hk hd hd' (by decide) (by decide) (by decide) hr,
    (burstAndEightSinglesLeaveTheSameImage _ _ _ rfl).symm, ?_, ?_, rfl⟩
  · exact List.length_append
  · exact List.length_append

end Sys2Proof.Proofs

/-! ### Commands that read no state (41_codec.md R135) -/

namespace Sys2Proof.Machine

/-- In every state with the parameters `p`: the same transactions and the end, or the same fault and
no change. -/
def ReadsOnlyParams (p : Params) (m : State → Ran Unit) : Prop :=
  (∃ ts, ∀ s, s.params = p → m s = .done () { s with log := s.log ++ ts }) ∨
  (∃ c, ∀ s, s.params = p → m s = .raised c s)

section
variable {p : Params}

theorem raised_readsOnlyParams (c : Cause) : ReadsOnlyParams p (Ran.raised c) :=
  .inr ⟨c, fun _ _ => rfl⟩

theorem done_readsOnlyParams {g : State → State} (ts : List Transaction)
    (h : ∀ s, s.params = p → g s = { s with log := s.log ++ ts }) :
    ReadsOnlyParams p fun s => .done () (g s) := .inl ⟨ts, fun s hp => congrArg _ (h s hp)⟩

/-- A check of operands before a part that reads no state. -/
theorem guardFault_readsOnlyParams {bad : Prop} [Decidable bad] {c : Cause} {m : State → Ran Unit}
    (h : ReadsOnlyParams p m) : ReadsOnlyParams p fun s => guardFault bad c s (m s) := by
  by_cases hbad : bad
  · simp only [guardFault_of hbad]
    exact raised_readsOnlyParams c
  · simpa only [guardFault_of_not hbad] using h

theorem withSel_readsOnlyParams {α : Type} (sel : Option α) {f : α → State → Ran Unit}
    (h : ∀ x, ReadsOnlyParams p (f x)) : ReadsOnlyParams p fun s => withSel sel s (f · s) := by
  cases sel with
  | none => exact raised_readsOnlyParams .badSelector
  | some x => exact h x

theorem encPll_readsOnlyParams (q : Pll) (a b c : Nat) : ReadsOnlyParams p (encPll q a b c) := by
  have hend : ReadsOnlyParams p fun s =>
      .done () (burst (pllBase q s) (pBlock (pWords a b c) 0) s) :=
    done_readsOnlyParams [.burst (p.regMap.pllBase.get q) (pBlock (pWords a b c) 0)] (by
      rintro s rfl
      rfl)
  exact guardFault_readsOnlyParams (guardFault_readsOnlyParams (guardFault_readsOnlyParams hend))

theorem encMsInt_readsOnlyParams (k : Channel) (d r : Nat) :
    ReadsOnlyParams p (encMsInt k d r) := by
  have hend : ReadsOnlyParams p fun s =>
      .done () (burst (msBase k s) (pBlock (pWords d 0 1) (rCode r s)) s) :=
    done_readsOnlyParams [.burst (p.regMap.msBase.get k) (pBlock (pWords d 0 1) (r <<< p.rPos))] (by
      rintro s rfl
      rfl)
  exact guardFault_readsOnlyParams (guardFault_readsOnlyParams hend)

theorem encMsFrac_readsOnlyParams (k : Channel) (d b c r : Nat) :
    ReadsOnlyParams p (encMsFrac k d b c r) := by
  have hend : ReadsOnlyParams p fun s =>
      .done () (singles (msBase k s) (pBlock (pWords d b c) (rCode r s)) s) :=
    done_readsOnlyParams
      (singleList (p.regMap.msBase.get k) (pBlock (pWords d b c) (r <<< p.rPos))) (by
      rintro s rfl
      exact singles_eq _ _ s)
  exact guardFault_readsOnlyParams (guardFault_readsOnlyParams
    (guardFault_readsOnlyParams (guardFault_readsOnlyParams hend)))

/-- The three commands: a selector, and the function it selects. -/
theorem body_readsOnlyParams {i : Instr} (h : Claims.IsPureCodec i) :
    ReadsOnlyParams p (body i) := by
  cases i with
  | init | setXtal | setFreq | disable => exact h.elim
  | encPll sel a b c => exact withSel_readsOnlyParams _ fun q => encPll_readsOnlyParams q _ _ _
  | encMsInt sel d r => exact withSel_readsOnlyParams _ fun k => encMsInt_readsOnlyParams k _ _
  | encMsFrac sel d b c r =>
    exact withSel_readsOnlyParams _ fun k => encMsFrac_readsOnlyParams k _ _ _ _

end

end Sys2Proof.Machine

namespace Sys2Proof.Proofs

open Sys2Proof.Machine

/-- Settles O14: the transactions or the fault of the body are the command's. -/
theorem pureCodecCommandsReadNoState : Obligations.PureCodecCommandsReadNoState := by
  intro i p hi
  rcases body_readsOnlyParams (p := p) hi with ⟨ts, hdone⟩ | ⟨c, hraised⟩
  · exact ⟨ts, none, fun s hp hv => exec_done hv (hdone s hp)⟩
  · refine ⟨[], some ⟨true, c.code, i.opcode.byte⟩, fun s hp hv => ?_⟩
    rw [exec_raised hv (hraised s hp), List.append_nil]
    rfl

end Sys2Proof.Proofs

/-! ### The divider search, exactly (42_search.md R151-R154) -/

namespace Sys2Proof.Machine

open Sys2Proof.Claims

/-- The least shift is within n exactly when a shift by n is enough. -/
theorem minShift_le_iff {q r : Nat} (h : MinShift q r) (n : Nat) : r ≤ n ↔ q / 2 ^ n ≤ 900 := by
  obtain ⟨henough, hleast⟩ := h
  constructor
  · intro hn
    have hpow : 2 ^ r ≤ 2 ^ n := Nat.pow_le_pow_right (by decide) hn
    exact (Nat.div_le_div_left hpow (Nat.two_pow_pos r)).trans henough
  · intro hn
    by_contra hlt
    exact absurd hn (Nat.not_le.2 (hleast n (by omega)))

theorem minShift_gt_iff {q r : Nat} (h : MinShift q r) (n : Nat) : n < r ↔ 900 < q / 2 ^ n := by
  simpa only [Nat.not_le] using (minShift_le_iff h n).not

theorem minShift_unique {q r r' : Nat} (h : MinShift q r) (h' : MinShift q r') : r = r' :=
  Nat.le_antisymm ((minShift_le_iff h r').2 h'.1) ((minShift_le_iff h' r).2 h.1)

/-- The shift of channel 2's derivation, which scales the request and not the quotient
(42_search.md R161), is the same least shift. -/
theorem minShift_of_scaled {p f r : Nat} (henough : p / (f * 2 ^ r) ≤ 900)
    (hleast : ∀ i < r, 900 < p / (f * 2 ^ i)) : MinShift (p / f) r := by
  simp only [MinShift, Nat.div_div_eq_div_mul]
  exact ⟨henough, hleast⟩

theorem searchYields_unique {f d r pll d' r' pll' : Nat} (h : SearchYields f d r pll)
    (h' : SearchYields f d' r' pll') : d = d' ∧ r = r' ∧ pll = pll' := by
  obtain ⟨hr, rfl, rfl⟩ := h
  obtain ⟨hr', rfl, rfl⟩ := h'
  obtain rfl := minShift_unique hr hr'
  exact ⟨rfl, rfl, rfl⟩

/-- R153: the least shift passes 7 from 7803 Hz down, for 900 000 000 is above 901 · 128 f there. -/
theorem minShift_gt_seven_iff {f r : Nat} (hf : 1 ≤ f) (h : MinShift (900000000 / f) r) :
    7 < r ↔ f ≤ 7803 := by
  rw [minShift_gt_iff h, Nat.div_div_eq_div_mul, Nat.lt_iff_add_one_le,
    Nat.le_div_iff_mul_le (by omega)]
  omega

/-- The search's three outcomes, with the frequencies that lead to each. -/
theorem search_outcome {f : Nat} (hf : 1 ≤ f) :
    (150000001 ≤ f ∧ search f = .underflow) ∨
    (f ≤ 7803 ∧ search f = .rTooLarge) ∨
    (7804 ≤ f ∧ f ≤ 150000000 ∧
      ∃ d r pll, SearchYields f d r pll ∧ search f = .ok d r pll) := by
  have hquot : 900000000 / f < 6 ↔ 150000001 ≤ f := by
    rw [Nat.div_lt_iff_lt_mul hf]
    omega
  rcases search_cases f with ⟨hq, e⟩ | ⟨hq, r, hleast, henough, ⟨hr, e⟩ | ⟨hr, e⟩⟩
  · exact .inl ⟨hquot.1 hq, e⟩
  · exact .inr (.inl ⟨(minShift_gt_seven_iff hf ⟨henough, hleast⟩).1 hr, e⟩)
  · have hlow := minShift_gt_seven_iff hf ⟨henough, hleast⟩
    exact .inr (.inr ⟨by omega, by omega, _, r, _, ⟨⟨henough, hleast⟩, by omega, rfl⟩, e⟩)

theorem search_underflow {f : Nat} (h : 150000001 ≤ f) : search f = .underflow := by
  rcases search_outcome (f := f) (by omega) with ⟨-, e⟩ | ⟨h', -⟩ | ⟨-, h', -⟩
  · exact e
  · omega
  · omega

theorem search_rTooLarge {f : Nat} (hf : 1 ≤ f) (h : f ≤ 7803) : search f = .rTooLarge := by
  rcases search_outcome hf with ⟨h', -⟩ | ⟨-, e⟩ | ⟨h', -, -⟩
  · omega
  · exact e
  · omega

theorem search_of_yields {f d r pll : Nat} (hlo : 7804 ≤ f) (hhi : f ≤ 150000000)
    (h : SearchYields f d r pll) : search f = .ok d r pll := by
  rcases search_outcome (f := f) (by omega) with ⟨h', -⟩ | ⟨h', -⟩ | ⟨-, -, d', r', pll', h', e⟩
  · omega
  · omega
  · obtain ⟨rfl, rfl, rfl⟩ := searchYields_unique h h'
    exact e

end Sys2Proof.Machine

/-! ### The PLL parameters of a searched frequency (42_search.md R155, R157, R158) -/

namespace Sys2Proof.Machine

theorem pllParams_mult (x pll : Nat) : (pllParams x pll).1 = pll * 10 / x := rfl

/-- R158: the remainder form of the numerator. The difference that is scaled is exactly a tenth of the
two remainders' sum. -/
theorem pllParams_num (x pll : Nat) :
    (pllParams x pll).2 =
      ((10 * pll) % x + ((pllParams x pll).1 * x) % 10) * 0xFFFFF / x := by
  rw [pllParams_mult, Nat.mul_comm 10 pll]
  have hdiv : pll * 10 / x * x + pll * 10 % x = pll * 10 := Nat.div_add_mod' _ _
  have hdiff : (pll - pll * 10 / x * x / 10) * 10 =
      pll * 10 % x + pll * 10 / x * x % 10 := by omega
  rw [← hdiff, Nat.mul_right_comm]
  rfl

theorem pllParams_num_lt {x : Nat} (hx : 1 ≤ x) (h10 : x % 10 = 0) (pll : Nat) :
    (pllParams x pll).2 < 0xFFFFF := by
  have hrem : (10 * pll) % x < x := Nat.mod_lt _ hx
  have hunits : (pllParams x pll).1 * x % 10 = 0 := by rw [Nat.mul_mod, h10, Nat.mul_zero]
  rw [pllParams_num, hunits, Nat.div_lt_iff_lt_mul hx]
  omega

theorem pllParams_num_le {x : Nat} (hx : 8 * 0xFFFFF < x) (pll : Nat) :
    (pllParams x pll).2 ≤ 0xFFFFF := by
  have hpos : 0 < x := Nat.zero_lt_of_lt hx
  have hrem : (10 * pll) % x < x := Nat.mod_lt _ hpos
  have hunits : (pllParams x pll).1 * x % 10 < 10 := Nat.mod_lt _ (by decide)
  have hlt : (pllParams x pll).2 < 0x100000 := by
    rw [pllParams_num, Nat.div_lt_iff_lt_mul hpos]
    linarith
  exact Nat.le_of_lt_succ hlt

/-- R158: a crystal too low for the bound on the numerator gives a multiplier out of range. -/
theorem pllParams_mult_gt {x pll : Nat} (hx : 1 ≤ x) (hlow : x ≤ 8 * 0xFFFFF)
    (hpll : 675000006 ≤ pll) : 90 < (pllParams x pll).1 := by
  rw [pllParams_mult, Nat.lt_iff_add_one_le, Nat.le_div_iff_mul_le hx]
  omega

/-- R158: FRAC_NUM_RANGE cannot come up where the multiplier is in range. -/
theorem pllParams_num_le_of_mult_le {x pll : Nat} (hx : 1 ≤ x) (hpll : 675000006 ≤ pll)
    (h : (pllParams x pll).1 ≤ 90) : (pllParams x pll).2 ≤ 0xFFFFF :=
  pllParams_num_le (Nat.lt_of_not_le fun hlow =>
    absurd h (Nat.not_le.2 (pllParams_mult_gt hx hlow hpll))) pll

/-- R157: the multiplier between its two ends. -/
theorem pllParams_mult_bounds {x pll : Nat} (hlo : 675000006 ≤ pll) (hhi : pll ≤ 900000000)
    (hx : 98901099 ≤ x) (hx' : x ≤ 450000004) :
    15 ≤ (pllParams x pll).1 ∧ (pllParams x pll).1 ≤ 90 := by
  have hlow : 15 ≤ pll * 10 / x := (Nat.le_div_iff_mul_le (by omega)).2 (by omega)
  have hhigh : pll * 10 / x < 91 := (Nat.div_lt_iff_lt_mul (by omega)).2 (by omega)
  exact ⟨hlow, Nat.le_of_lt_succ hhigh⟩

end Sys2Proof.Machine

namespace Sys2Proof.Proofs

open Sys2Proof.Machine

/-- Settles O23, by the three outcomes, whose ranges of f are apart. -/
theorem searchOutcome : Obligations.SearchOutcome := by
  intro f hf
  rcases search_outcome hf with ⟨h, e⟩ | ⟨h, e⟩ | ⟨hlo, hhi, d, r, pll, hy, e⟩
  · exact ⟨iff_of_true e h, iff_of_false (by simp [e]) (by omega),
      fun d r pll => iff_of_false (by simp [e]) (by omega)⟩
  · exact ⟨iff_of_false (by simp [e]) (by omega), iff_of_true e h,
      fun d r pll => iff_of_false (by simp [e]) (by omega)⟩
  · refine ⟨iff_of_false (by simp [e]) (by omega), iff_of_false (by simp [e]) (by omega),
      fun d' r' pll' => ⟨fun h => ?_, fun ⟨_, _, h⟩ => search_of_yields hlo hhi h⟩⟩
    rw [e] at h
    cases h
    exact ⟨hlo, hhi, hy⟩

/-- Settles O25, by the remainder form of the numerator and the lower bound on a searched PLL
frequency. -/
theorem numeratorOfPllParams : Obligations.NumeratorOfPllParams := by
  refine ⟨fun f d r pll x _ hs hx => ?_, by decide⟩
  obtain ⟨-, hlo, -⟩ := search_ok_bounds hs
  exact ⟨pllParams_num x pll, fun h => pllParams_num_lt hx h pll, fun h => pllParams_num_le h pll,
    fun h => pllParams_mult_gt hx h hlo⟩

/-- Settles O26, by the range of a searched PLL frequency. -/
theorem multiplierStaysInRange : Obligations.MultiplierStaysInRange := by
  intro f d r pll x _ hs hx hx'
  obtain ⟨-, hlo, hhi⟩ := search_ok_bounds hs
  exact pllParams_mult_bounds hlo hhi hx hx'

end Sys2Proof.Proofs

/-! ### The cache gate and one channel's program (42_search.md R156, R157) -/

namespace Sys2Proof.Machine

open Sys2Proof.Claims

section
variable {k : Channel} {d r : Nat} {immediate : Bool} {s : State}

theorem gateMisses_eq_false_iff :
    gateMisses k d r s = false ↔ (s.div.get k).toNat = d ∧ (s.rsh.get k).toNat = r := by
  simp [gateMisses]

theorem gateMisses_eq_true_iff :
    gateMisses k d r s = true ↔ (s.div.get k).toNat ≠ d ∨ (s.rsh.get k).toNat ≠ r := by
  simp [gateMisses]

theorem cacheGate_hit (hd : (s.div.get k).toNat = d) (hr : (s.rsh.get k).toNat = r) :
    cacheGate k d r immediate s = .done () s := if_neg (by omega)

/-- On a miss a fault of the integer encoder is the gate's. -/
theorem cacheGate_raised {c : Cause}
    (hmiss : (s.div.get k).toNat ≠ d ∨ (s.rsh.get k).toNat ≠ r)
    (he : encMsInt k d r s = .raised c s) : cacheGate k d r immediate s = .raised c s := by
  rw [cacheGate, if_pos (hmiss.imp Ne.symm Ne.symm), he, andThen_raised]

/-- The state after a miss of the cache gate, as R156 says it. -/
def reprogrammed (k : Channel) (d r : Nat) (immediate : Bool) (s : State) : State :=
  { s with
    log := s.log ++ [.burst (msBase k s) (fracBytes d 0 1 (rcode r s)),
        .single (ctrlReg k s) (enableByte k s)] ++
      (if immediate then [.single s.params.regMap.pllReset 0xA0] else [])
    div := s.div.set k (BitVec.ofNat 10 d)
    rsh := s.rsh.set k (BitVec.ofNat 3 r)
    owed := if immediate then s.owed else true }

theorem cacheGate_miss (hd : 6 ≤ d) (hd' : d ≤ 900) (he : d % 2 = 0) (hr : r ≤ 7)
    (hmiss : (s.div.get k).toNat ≠ d ∨ (s.rsh.get k).toNat ≠ r) :
    cacheGate k d r immediate s = .done () (reprogrammed k d r immediate s) := by
  rcases cacheGate_cases hd hd' he hr k immediate s with ⟨hdiv, hrsh, -⟩ | ⟨-, e⟩
  · omega
  · rw [e, burst_pBlock, byteOf_rCode, reprogrammed, List.append_cons s.log _ [_]]
    cases immediate
    · simp only [Bool.false_eq_true, if_false, List.append_nil]
      rfl
    · rfl

/-- R157's state: the PLL block's burst, and on a miss what the gate does after it. -/
theorem programmed_of_hit {mult num : Nat} (h : gateMisses k d r s = false) :
    programmed k d r mult num (gateMisses k d r s) immediate s =
      burst (pllBase k.pll s) (fracBytes mult num 0xFFFFF 0) s := by
  rw [h, programmed, programWrites]
  rfl

theorem programmed_of_miss {mult num : Nat} (h : gateMisses k d r s = true) :
    programmed k d r mult num (gateMisses k d r s) immediate s =
      reprogrammed k d r immediate (burst (pllBase k.pll s) (fracBytes mult num 0xFFFFF 0) s) := by
  rw [h, programmed, programWrites, ← List.append_assoc s.log, reprogrammed,
    List.append_assoc _ [_, _]]
  cases immediate <;> rfl

/-- After the PLL block's burst, the gate leaves the channel as R157 says. -/
theorem cacheGate_programmed (hd : 6 ≤ d) (hd' : d ≤ 900) (he : d % 2 = 0) (hr : r ≤ 7)
    (mult num : Nat) :
    cacheGate k d r immediate (burst (pllBase k.pll s) (fracBytes mult num 0xFFFFF 0) s) =
      .done () (programmed k d r mult num (gateMisses k d r s) immediate s) := by
  cases h : gateMisses k d r s
  · rw [← h, programmed_of_hit h]
    obtain ⟨hdiv, hrsh⟩ := gateMisses_eq_false_iff.1 h
    exact cacheGate_hit hdiv hrsh
  · rw [← h, programmed_of_miss h]
    exact cacheGate_miss hd hd' he hr (gateMisses_eq_true_iff.1 h)

/-- A searched frequency with a crystal set goes through the PLL encoder and the cache gate. -/
theorem programChannel_of_search {f pll : Nat} (hs : search f = .ok d r pll) (hx : s.xtal ≠ 0) :
    programChannel k f immediate s =
      (encPll k.pll (pllParams s.xtal.toNat pll).1 (pllParams s.xtal.toNat pll).2 0xFFFFF s).andThen
        fun _ u => (cacheGate k d r immediate u).andThen fun _ u => .done (some pll) u := by
  simp only [programChannel, hs, guardFault_of_not hx]
  rfl

theorem programChannel_underflow {f : Nat} (hs : search f = .underflow) :
    programChannel k f immediate s = .done none (setDiag k (disableChannel k s)) := by
  simp only [programChannel, hs]

theorem programChannel_rTooLarge {f : Nat} (hs : search f = .rTooLarge) :
    programChannel k f immediate s = .raised .rDivRange s := by
  simp only [programChannel, hs]

theorem programChannel_xtalUnset {f pll : Nat} (hs : search f = .ok d r pll) (hx : s.xtal = 0) :
    programChannel k f immediate s = .raised .xtalUnset s := by
  simp only [programChannel, hs, guardFault_of hx]

theorem programChannel_multRange {f pll : Nat} (hs : search f = .ok d r pll) (hx : s.xtal ≠ 0)
    (hmult : (pllParams s.xtal.toNat pll).1 < 15 ∨ 90 < (pllParams s.xtal.toNat pll).1) :
    programChannel k f immediate s = .raised .pllMultRange s := by
  rw [programChannel_of_search hs hx, encPll, guardFault_of (by exact hmult), andThen_raised]

/-- With the multiplier in range nothing else can raise: the numerator is at most 0xFFFFF (R158). -/
theorem programChannel_programmed {f pll : Nat} (hs : search f = .ok d r pll) (hx : s.xtal ≠ 0)
    (hmult : 15 ≤ (pllParams s.xtal.toNat pll).1) (hmult' : (pllParams s.xtal.toNat pll).1 ≤ 90) :
    programChannel k f immediate s = .done (some pll)
      (programmed k d r (pllParams s.xtal.toNat pll).1 (pllParams s.xtal.toNat pll).2
        (gateMisses k d r s) immediate s) := by
  obtain ⟨hd, hd', he, hr, -⟩ := search_ok hs
  obtain ⟨-, hlo, -⟩ := search_ok_bounds hs
  have hpos : 1 ≤ s.xtal.toNat := Nat.one_le_iff_ne_zero.2 fun h0 => hx (BitVec.eq_of_toNat_eq h0)
  have hnum := pllParams_num_le_of_mult_le hpos hlo hmult'
  rw [programChannel_of_search hs hx, encPll_done hmult hmult' hnum (by decide) (by decide),
    andThen_done, pBlock_pWords]
  exact congrArg (Ran.andThen · _) (cacheGate_programmed hd hd' he hr _ _)

end

end Sys2Proof.Machine

/-! ### Channel 2 from a PLL-B frequency (42_search.md R162) -/

namespace Sys2Proof.Machine

/-- The least shift passes 7 exactly when a shift by 7 is not enough. -/
theorem scaledShift_gt_seven_iff {p f r : Nat} (henough : p / (f * 2 ^ r) ≤ 900)
    (hleast : ∀ i < r, 900 < p / (f * 2 ^ i)) : 7 < r ↔ 900 < p / (f * 128) := by
  rw [minShift_gt_iff (minShift_of_scaled henough hleast), Nat.div_div_eq_div_mul]
  rfl

theorem ch2Frac_raised {p f : Nat} (hp : p < 2 ^ 32) (hf : 1 ≤ f) (h : 900 < p / (f * 128))
    (s : State) : ch2Frac p f s = .raised .rDivRange s := by
  have hfirst : p / (f * 128) ≤ p / f :=
    Nat.div_le_div_left (Nat.le_mul_of_pos_right f (by decide)) hf
  rcases ch2Frac_cases hp hf s with ⟨hq, -⟩ | ⟨-, r, hleast, henough, -, -, ⟨-, e⟩ | ⟨hr, -⟩⟩
  · omega
  · exact e
  · have hseven := scaledShift_gt_seven_iff henough hleast
    omega

theorem ch2Frac_done {p f : Nat} (hp : p < 2 ^ 32) (hf : 1 ≤ f) (h : p / (f * 128) ≤ 900)
    (s : State) : ∃ t, ch2Frac p f s = .done () t := by
  rcases ch2Frac_cases hp hf s with ⟨-, e⟩ | ⟨-, r, hleast, henough, -, -, ⟨hr, -⟩ | ⟨-, e⟩⟩
  · exact ⟨_, e⟩
  · have hseven := scaledShift_gt_seven_iff henough hleast
    omega
  · exact ⟨_, e⟩

end Sys2Proof.Machine

namespace Sys2Proof.Proofs

open Sys2Proof.Machine

/-- Settles O27, by a hit, or a miss through each outcome of the integer encoder. -/
theorem cacheGateReprogramsOnlyOnAChange : Obligations.CacheGateReprogramsOnlyOnAChange := by
  intro k d r immediate s
  refine ⟨fun ⟨hd, hr⟩ => cacheGate_hit hd hr, fun hmiss => ?_⟩
  rcases encMsInt_cases k d r s with ⟨hd, e⟩ | ⟨hd, hd', he, hr, e⟩ | ⟨hd, hd', he, hr, -⟩
  · exact ⟨fun _ => cacheGate_raised hmiss e, fun h => absurd h (by omega)⟩
  · exact ⟨fun h => absurd h (by omega), fun _ =>
      ⟨fun _ => cacheGate_raised hmiss e, fun h => absurd h (by omega)⟩⟩
  · exact ⟨fun h => absurd h (by omega), fun _ =>
      ⟨fun h => absurd h (by omega), fun _ => cacheGate_miss hd hd' he hr hmiss⟩⟩

/-- Settles O28, by the three outcomes of the search and the checks that follow it. -/
theorem programChannelOutcome : Obligations.ProgramChannelOutcome := by
  intro k f immediate s hf
  refine ⟨fun h => ?_, fun h => ?_, fun d r pll mult num hlo hhi hy hmult hnum => ?_⟩
  · exact programChannel_underflow (search_underflow h)
  · exact programChannel_rTooLarge (search_rTooLarge hf h)
  · have hs := search_of_yields hlo hhi hy
    subst hmult hnum
    exact ⟨programChannel_xtalUnset hs, fun hx =>
      ⟨programChannel_multRange hs hx, fun ⟨h, h'⟩ => programChannel_programmed hs hx h h'⟩⟩

/-- Settles O29, by the derivation's outcomes: its shift is the least one for the first quotient. -/
theorem ch2FracOutcome : Obligations.Ch2FracOutcome := by
  intro pllb f2 s hp hf
  rcases ch2Frac_cases hp hf s with ⟨h, e⟩ | ⟨h, r, hleast, henough, hd, hnum, hend⟩
  · exact ⟨fun _ => e, fun h' => absurd h' (by omega)⟩
  have hseven := scaledShift_gt_seven_iff henough hleast
  refine ⟨fun h' => absurd h' (by omega), fun _ => ⟨r, henough, hleast, hseven, ?_⟩⟩
  rcases hend with ⟨hr, e⟩ | ⟨hr, e⟩
  · exact ⟨fun _ => e, fun h' => absurd h' (by omega)⟩
  · refine ⟨fun h' => absurd h' (by omega), fun _ => ⟨hd, hnum, e.trans ?_⟩⟩
    simp only [singles_pBlock, byteOf_rCode, ite_not]
    rfl

end Sys2Proof.Proofs

/-! ### SET_FREQ, part by part (43_controller.md R185-R200) -/

namespace Sys2Proof.Machine

open Sys2Proof.Claims

theorem changed_eq_false_iff {k : Channel} {f : BitVec 32} {s : State} :
    changed k f s = false ↔ Unchanged k f s := by
  simp [changed, Unchanged, eq_comm (a := f)]

theorem changed_of_not_unchanged {k : Channel} {f : BitVec 32} {s : State}
    (h : ¬ Unchanged k f s) : changed k f s = true :=
  Bool.eq_true_of_not_eq_false (changed_eq_false_iff.not.2 h)

theorem toNat_ne_zero {f : BitVec 32} (h : f ≠ 0) : f.toNat ≠ 0 :=
  fun h0 => h (BitVec.eq_of_toNat_eq h0)

theorem batchedStrobe_eq_finished (early : Bool) (s : State) :
    batchedStrobe early s = finished early s := by
  unfold batchedStrobe finished
  split
  · rfl
  · rw [List.append_nil]

/-- A command that raises keeps what its body wrote before (R222). -/
theorem exec_raised_at {i : Instr} {s u : State} {c : Cause} (hv : s.flt.v = false)
    (h : body i s = .raised c u) : exec i s = .next (faulted c.code i.opcode.byte u) :=
  (exec_eq_runCommand i s).trans (runCommand_raised _ hv h)

section
variable {f0 f1 f2 : BitVec 32} {s u : State}
  (h0 : channel0 (changed .ch0 f0 s) f0.toNat (latched f0 f1 f2 s) = .done () u)
include h0

theorem setFreq_eq_group :
    setFreq f0 f1 f2 s =
      (pllBGroup (changed .ch1 f1 s) (changed .ch2 f2 s) f1.toNat f2.toNat u).andThen
        fun early v => .done () (finished early v) := by
  have hch0 : channel0 (changed .ch0 f0 s) f0.toNat (latch f0 f1 f2 s) = .done () u := h0
  simp only [setFreq, hch0, andThen_done, batchedStrobe_eq_finished]

theorem setFreq_done {early : Bool} {v : State}
    (h : pllBGroup (changed .ch1 f1 s) (changed .ch2 f2 s) f1.toNat f2.toNat u =
      .done early v) : setFreq f0 f1 f2 s = .done () (finished early v) := by
  rw [setFreq_eq_group h0, h, andThen_done]

theorem setFreq_raised {c : Cause} {v : State}
    (h : pllBGroup (changed .ch1 f1 s) (changed .ch2 f2 s) f1.toNat f2.toNat u =
      .raised c v) : setFreq f0 f1 f2 s = .raised c v := by
  rw [setFreq_eq_group h0, h, andThen_raised]

/-- Channel 0's part leaves the crystal and PLLB as they are. -/
theorem channel0_done_keeps : u.xtal = s.xtal ∧ u.pllb = s.pllb := by
  have hframe := (setFreqKeeps_frame false 0 (latched f0 f1 f2 s)).channel0
    (changed .ch0 f0 s) f0.toNat ⟨.refl _, .inl rfl⟩
  rw [h0] at hframe
  obtain ⟨hframe, hpllb | ⟨hc, -⟩⟩ := hframe
  · exact ⟨hframe.xtal, hpllb⟩
  · cases hc

end

section
variable {f0 f1 f2 : Nat} {c1 c2 : Bool} {s t : State}

theorem channel0_programmed {res : Option Nat} (hf : f0 ≠ 0)
    (h : programChannel .ch0 f0 false s = .done res t) : channel0 true f0 s = .done () t := by
  rw [channel0, if_pos rfl, if_neg hf, h, andThen_done]

theorem pllBGroup_branchA (hf : f1 ≠ 0) : pllBGroup true c2 f1 f2 s = branchA f1 f2 s := by
  rw [pllBGroup, Bool.true_or, if_pos rfl, if_pos hf, if_pos rfl]

theorem pllBGroup_branchB (hf : f1 ≠ 0) :
    pllBGroup false true f1 f2 s = channel2FromPllb f2 s := by
  rw [pllBGroup, Bool.false_or, if_pos rfl, if_pos hf, if_neg Bool.false_ne_true, branchB]

theorem pllBGroup_branchC (hc : (c1 || c2) = true) (hf : f2 ≠ 0) :
    pllBGroup c1 c2 0 f2 s = branchC f2 s := by
  rw [pllBGroup, if_pos hc, if_neg (not_not.2 rfl), if_pos hf]

theorem branchA_programmed {pll : Nat} (h : programChannel .ch1 f1 false s = .done (some pll) t) :
    branchA f1 f2 s = channel2FromPllb f2 { t with pllb := BitVec.ofNat 32 pll } := by
  rw [branchA, h, andThen_done]

theorem branchA_underflow (h : programChannel .ch1 f1 false s = .done none t) :
    branchA f1 f2 s = .done true t := by
  rw [branchA, h, andThen_done]

theorem channel2FromPllb_of_ne (hf : f2 ≠ 0) :
    channel2FromPllb f2 s = (ch2Frac s.pllb.toNat f2 s).andThen fun _ v => .done false v :=
  if_neg hf

end

/-- The crystals with which every searched multiplier is in range (42_search.md R157). -/
def XtalInRange (s : State) : Prop := 98901099 ≤ s.xtal.toNat ∧ s.xtal.toNat ≤ 450000004

theorem XtalInRange.ne_zero {s : State} (h : XtalInRange s) : s.xtal ≠ 0 := by
  obtain ⟨hlo, -⟩ := h
  intro h0
  rw [h0] at hlo
  exact absurd hlo (by decide)

/-- With such a crystal, a request that the search accepts programs its channel. -/
theorem programChannel_in_range {k : Channel} {f d r pll : Nat} {immediate : Bool} {s : State}
    (hx : XtalInRange s) (hlo : 7804 ≤ f) (hhi : f ≤ 150000000) (hy : SearchYields f d r pll) :
    programChannel k f immediate s = .done (some pll)
      (programmed k d r (pllParams s.xtal.toNat pll).1 (pllParams s.xtal.toNat pll).2
        (gateMisses k d r s) immediate s) := by
  have hs := search_of_yields hlo hhi hy
  obtain ⟨-, hpll, hpll'⟩ := search_ok_bounds hs
  obtain ⟨hmult, hmult'⟩ := pllParams_mult_bounds hpll hpll' hx.1 hx.2
  exact programChannel_programmed hs hx.ne_zero hmult hmult'

end Sys2Proof.Machine

namespace Sys2Proof.Proofs

open Sys2Proof.Machine

/-- Settles O37: channel 0's program, an idle PLL-B group, and the batched strobe. -/
theorem channel0ProgrammedAlone : Obligations.Channel0ProgrammedAlone := by
  intro f0 f1 f2 s d r pll mult num hv hc0 hc1 hc2 hlo hhi hy hx hx' hmult hnum
  subst hmult hnum
  have hch0 := channel0_programmed (by omega)
    (programChannel_in_range (k := .ch0) (immediate := false) (s := Claims.latched f0 f1 f2 s)
      ⟨hx, hx'⟩ hlo hhi hy)
  rw [← changed_of_not_unchanged hc0] at hch0
  refine exec_done hv (setFreq_done hch0 ?_)
  rw [changed_eq_false_iff.2 hc1, changed_eq_false_iff.2 hc2]
  rfl

/-- Settles O56: branch A's channel 1 completes, and its PLL frequency is too high for channel 2. -/
theorem channel2FaultKeepsChannel1 : Obligations.Channel2FaultKeepsChannel1 := by
  intro f0 f1 f2 s s1 d r pll mult num hv hc1 hlo hhi hy hf2 hlow hx hx' hmult hnum hch0
  obtain ⟨hxtal, -⟩ := channel0_done_keeps hch0
  subst hmult hnum
  rw [← hxtal] at hx hx' ⊢
  have hch1 := programChannel_in_range (k := .ch1) (immediate := false) ⟨hx, hx'⟩ hlo hhi hy
  obtain ⟨-, -, hpll⟩ := search_ok_bounds (search_of_yields hlo hhi hy)
  have hpllb : (BitVec.ofNat 32 pll).toNat = pll := Nat.mod_eq_of_lt (by omega)
  have hf2n := toNat_ne_zero hf2
  refine exec_raised_at (c := .rDivRange) hv (setFreq_raised hch0 ?_)
  rw [changed_of_not_unchanged hc1, pllBGroup_branchA (by omega), branchA_programmed hch1,
    channel2FromPllb_of_ne hf2n, hpllb, ch2Frac_raised (by omega) (by omega) hlow]
  rfl

end Sys2Proof.Proofs

/-! ### SET_FREQ completes (43_controller.md R185-R203) -/

namespace Sys2Proof.Machine

open Sys2Proof.Claims

/-! What a programmed channel's caches hold, on a hit and on a miss of the gate. -/

section
variable {k : Channel} {d r mult num : Nat} {immediate : Bool} {s : State}

theorem programmed_div (hd : d ≤ 900) :
    ((programmed k d r mult num (gateMisses k d r s) immediate s).div.get k).toNat = d := by
  cases h : gateMisses k d r s
  · exact (gateMisses_eq_false_iff.1 h).left
  · have hset : (s.div.set k (BitVec.ofNat 10 d)).get k = BitVec.ofNat 10 d :=
      PerChannel.get_set_same _ _ _
    exact (congrArg BitVec.toNat hset).trans (Nat.mod_eq_of_lt (by omega))

theorem programmed_rsh (hr : r ≤ 7) :
    ((programmed k d r mult num (gateMisses k d r s) immediate s).rsh.get k).toNat = r := by
  cases h : gateMisses k d r s
  · exact (gateMisses_eq_false_iff.1 h).right
  · have hset : (s.rsh.set k (BitVec.ofNat 3 r)).get k = BitVec.ofNat 3 r :=
      PerChannel.get_set_same _ _ _
    exact (congrArg BitVec.toNat hset).trans (Nat.mod_eq_of_lt (by omega))

end

/-- What the caches of a channel hold once it was processed for the request f: cleared when it was
disabled, the search's result when it was programmed. -/
structure CachesFollow (k : Channel) (f : BitVec 32) (s t : State) : Prop where
  off : f = 0 ∨ 150000000 < f.toNat → t.div.get k = 0 ∧ t.rsh.get k = s.rsh.get k
  on : ∀ d r pll, f ≠ 0 → f.toNat ≤ 150000000 → SearchYields f.toNat d r pll →
    (t.div.get k).toNat = d ∧ (t.rsh.get k).toNat = r

/-- Work outside the channel, before it or after it, changes nothing of that. -/
theorem CachesFollow.of_before {K : Channel → Prop} {k : Channel} {f : BitVec 32} {s u t : State}
    (h : CachesFollow k f u t) (hs : Footprint K s u) (hk : ¬ K k) : CachesFollow k f s t := by
  obtain ⟨-, hrsh⟩ := hs.cache k hk
  exact ⟨fun hoff => hrsh ▸ h.off hoff, h.on⟩

theorem CachesFollow.of_after {K : Channel → Prop} {k : Channel} {f : BitVec 32} {s u t : State}
    (h : CachesFollow k f s u) (ht : Footprint K u t) (hk : ¬ K k) : CachesFollow k f s t := by
  obtain ⟨hdiv, hrsh⟩ := ht.cache k hk
  obtain ⟨off, on⟩ := h
  rw [← hdiv, ← hrsh] at off on
  exact ⟨off, on⟩

theorem le_toNat_of_freqOk {f : BitVec 32} (h : freqOk f.toNat = true) (hf : f ≠ 0) :
    7804 ≤ f.toNat := by
  simpa [freqOk, toNat_ne_zero hf] using h

theorem cachesFollow_disableChannel (k : Channel) (s : State) :
    CachesFollow k 0 s (disableChannel k s) where
  off _ := ⟨PerChannel.get_set_same _ _ _, rfl⟩
  on _ _ _ h := absurd rfl h

/-- An enabled channel's program completes: it disables the channel, or yields the PLL frequency of
its search. -/
theorem programChannel_completes {k : Channel} {f : BitVec 32} {s : State} (hx : XtalInRange s)
    (hok : freqOk f.toNat = true) (hf : f ≠ 0) (immediate : Bool) :
    ∃ res t, programChannel k f.toNat immediate s = .done res t ∧ CachesFollow k f s t ∧
      ((150000000 < f.toNat ∧ res = none) ∨ (f.toNat ≤ 150000000 ∧
        ∃ d r pll, SearchYields f.toNat d r pll ∧ res = some pll)) := by
  have hlo := le_toNat_of_freqOk hok hf
  rcases search_outcome (f := f.toNat) (by omega) with
    ⟨hhi, hs⟩ | ⟨hhi, -⟩ | ⟨-, hhi, d, r, pll, hy, hs⟩
  · exact ⟨none, _, programChannel_underflow hs,
      ⟨fun _ => ⟨PerChannel.get_set_same _ _ _, rfl⟩, fun _ _ _ _ h => absurd h (by omega)⟩,
      .inl ⟨by omega, rfl⟩⟩
  · omega
  · obtain ⟨-, hd, -, hr, -⟩ := search_ok hs
    refine ⟨some pll, _, programChannel_in_range hx hlo hhi hy,
      ⟨fun h => absurd h (not_or.2 ⟨hf, by omega⟩), fun d' r' pll' _ _ hy' => ?_⟩,
      .inr ⟨hhi, d, r, pll, hy, rfl⟩⟩
    obtain ⟨rfl, rfl, -⟩ := searchYields_unique hy hy'
    exact ⟨programmed_div hd, programmed_rsh hr⟩

theorem channel0_completes {c0 : Bool} {f : BitVec 32} {s : State} (hx : XtalInRange s)
    (hok : freqOk f.toNat = true) :
    ∃ t, channel0 c0 f.toNat s = .done () t ∧ (c0 = true → CachesFollow .ch0 f s t) := by
  cases c0
  · exact ⟨s, rfl, nofun⟩
  by_cases hf : f = 0
  · subst hf
    exact ⟨_, rfl, fun _ => cachesFollow_disableChannel .ch0 s⟩
  · obtain ⟨res, t, e, h, -⟩ := programChannel_completes (k := .ch0) hx hok hf false
    exact ⟨t, channel0_programmed (toNat_ne_zero hf) e, fun _ => h⟩

/-- Channel 2's part of branches A and B completes for every PLL-B frequency up to the ceiling: from
7804 Hz up, R = 7 is enough for it. -/
theorem channel2FromPllb_completes {f : BitVec 32} {s : State} (hpllb : s.pllb.toNat ≤ 900000000)
    (hok : freqOk f.toNat = true) :
    ∃ t, channel2FromPllb f.toNat s = .done false t ∧ t.pllb = s.pllb ∧ t.rsh = s.rsh ∧
      t.div = s.div.set .ch2 0 := by
  obtain ⟨t, e⟩ : ∃ t, channel2FromPllb f.toNat s = .done false t := by
    by_cases hf : f = 0
    · subst hf
      exact ⟨_, rfl⟩
    · have hlo := le_toNat_of_freqOk hok hf
      have hshift : s.pllb.toNat / (f.toNat * 128) ≤ 900 :=
        Nat.le_of_lt_succ ((Nat.div_lt_iff_lt_mul (by omega)).2 (by omega))
      obtain ⟨t, e⟩ := ch2Frac_done s.pllb.isLt (by omega) hshift s
      exact ⟨t, by rw [channel2FromPllb_of_ne (by omega), e, andThen_done]⟩
  have hframe := channel2FromPllb_frame f.toNat s
  rw [e] at hframe
  obtain ⟨-, hp, hr, hd, -⟩ := hframe
  exact ⟨t, e, hp, hr, hd⟩

/-- What the PLL-B group leaves in the caches and in PLLB, path by path. -/
structure GroupFollows (c1 c2 : Bool) (f1 f2 : BitVec 32) (s t : State) : Prop where
  ch1Off : c1 = true → f1 = 0 ∨ 150000000 < f1.toNat →
    t.div.get .ch1 = 0 ∧ t.rsh.get .ch1 = s.rsh.get .ch1 ∧ t.pllb = s.pllb
  ch1On : c1 = true → ∀ d r pll, f1 ≠ 0 → f1.toNat ≤ 150000000 → SearchYields f1.toNat d r pll →
    (t.div.get .ch1).toNat = d ∧ (t.rsh.get .ch1).toNat = r ∧ t.pllb.toNat = pll ∧
      t.div.get .ch2 = 0
  ch2Alone : f1 = 0 → c1 = true ∨ c2 = true → CachesFollow .ch2 f2 s t
  ch2Derived : f1 ≠ 0 → c1 = false → c2 = true → t.div.get .ch2 = 0 ∧ t.pllb = s.pllb

/-- The group follows channel 0's part, which touches neither its caches nor PLLB. -/
theorem GroupFollows.of_channel0 {c1 c2 : Bool} {f1 f2 : BitVec 32} {s u t : State}
    (h : GroupFollows c1 c2 f1 f2 u t) (hs : Footprint (Only .ch0) s u) :
    GroupFollows c1 c2 f1 f2 s t := by
  have hpllb : u.pllb = s.pllb := hs.pllb nofun
  obtain ⟨-, hrsh⟩ := hs.cache .ch1 nofun
  obtain ⟨ch1Off, ch1On, ch2Alone, ch2Derived⟩ := h
  rw [hpllb] at ch1Off ch2Derived
  rw [hrsh] at ch1Off
  exact ⟨ch1Off, ch1On, fun h0 hc => (ch2Alone h0 hc).of_before hs nofun, ch2Derived⟩

/-- Branch D: both channels disabled. -/
theorem groupFollows_bothOff (c1 c2 : Bool) (s : State) :
    GroupFollows c1 c2 0 0 s (disableChannel .ch2 (disableChannel .ch1 s)) where
  ch1Off _ _ := ⟨rfl, rfl, rfl⟩
  ch1On _ _ _ _ h := absurd rfl h
  ch2Alone _ _ := ⟨fun _ => ⟨rfl, rfl⟩, fun _ _ _ h => absurd rfl h⟩
  ch2Derived h := absurd rfl h

section
variable {f1 f2 : BitVec 32} {s : State} (hx : XtalInRange s) (hok2 : freqOk f2.toNat = true)
include hx hok2

/-- Branch A: channel 1 by its search, and channel 2, unless the early return is taken, from the new
PLLB. -/
theorem branchA_completes (hok1 : freqOk f1.toNat = true) (hf1 : f1 ≠ 0) (c2 : Bool) :
    ∃ early t, branchA f1.toNat f2.toNat s = .done early t ∧ GroupFollows true c2 f1 f2 s t := by
  obtain ⟨res, u, e, hcache, hres⟩ := programChannel_completes (k := .ch1) hx hok1 hf1 false
  have hframe := programChannel_frame .ch1 f1.toNat false s
  rw [e] at hframe
  obtain ⟨-, hpllb, hsearch, -⟩ := hframe
  rcases hres with ⟨hhi, rfl⟩ | ⟨hhi, d, r, pll, hy, rfl⟩
  · refine ⟨true, u, branchA_underflow e, ?_, ?_, fun h => absurd h hf1, nofun⟩
    · intro _ h
      obtain ⟨hdiv, hrsh⟩ := hcache.off h
      exact ⟨hdiv, hrsh, hpllb⟩
    · intro _ _ _ _ _ h
      omega
  · obtain ⟨d', r', hs⟩ := hsearch pll rfl
    obtain ⟨-, -, hpll⟩ := search_ok_bounds hs
    have hnew : (BitVec.ofNat 32 pll).toNat = pll := Nat.mod_eq_of_lt (by omega)
    obtain ⟨t, e2, hp, hr, hd⟩ := channel2FromPllb_completes
      (s := { u with pllb := BitVec.ofNat 32 pll }) (by rw [hnew]; exact hpll) hok2
    refine ⟨false, t, (branchA_programmed e).trans e2, ?_, ?_, fun h => absurd h hf1, nofun⟩
    · rintro _ (h | h)
      · exact absurd h hf1
      · omega
    · intro _ d r pll' _ _ hy'
      obtain ⟨hdiv, hrsh⟩ := hcache.on d r pll' hf1 hhi hy'
      obtain ⟨-, -, rfl⟩ := searchYields_unique hy hy'
      rw [hp, hr, hd]
      exact ⟨hdiv, hrsh, hnew, rfl⟩

/-- Branch C: channel 1 disabled, channel 2 by its own search. -/
theorem branchC_completes (hf2 : f2 ≠ 0) (c1 c2 : Bool) :
    ∃ t, branchC f2.toNat s = .done false t ∧ GroupFollows c1 c2 0 f2 s t := by
  obtain ⟨res, t, e, hcache, -⟩ :=
    programChannel_completes (k := .ch2) (s := disableChannel .ch1 s) hx hok2 hf2 true
  have hfoot := programChannel_footprint .ch2 f2.toNat true (disableChannel .ch1 s)
  rw [e] at hfoot
  obtain ⟨hdiv, hrsh⟩ := hfoot.cache .ch1 nofun
  have hpllb : t.pllb = s.pllb := hfoot.pllb nofun
  refine ⟨t, by rw [branchC, e, andThen_done], ?_, ?_, ?_, fun h => absurd rfl h⟩
  · exact fun _ _ => ⟨hdiv, hrsh, hpllb⟩
  · exact fun _ _ _ _ h => absurd rfl h
  · exact fun _ _ => ⟨hcache.off, hcache.on⟩

theorem pllBGroup_completes (hok1 : freqOk f1.toNat = true) (hpllb : s.pllb.toNat ≤ 900000000)
    (c1 c2 : Bool) :
    ∃ early t, pllBGroup c1 c2 f1.toNat f2.toNat s = .done early t ∧
      GroupFollows c1 c2 f1 f2 s t := by
  by_cases hc : (c1 || c2) = true
  swap
  · obtain ⟨rfl, rfl⟩ : c1 = false ∧ c2 = false := by simpa using hc
    exact ⟨false, s, rfl, nofun, nofun, nofun, nofun⟩
  by_cases hf1 : f1 = 0
  · subst hf1
    by_cases hf2 : f2 = 0
    · subst hf2
      exact ⟨false, disableChannel .ch2 (disableChannel .ch1 s),
        (pllBGroup_zero c1 c2 s).trans (by rw [if_pos hc]), groupFollows_bothOff c1 c2 s⟩
    · obtain ⟨t, e, h⟩ := branchC_completes hx hok2 hf2 c1 c2
      exact ⟨false, t, (pllBGroup_branchC hc (toNat_ne_zero hf2)).trans e, h⟩
  · cases c1
    · obtain ⟨t, e, hp, -, hd⟩ := channel2FromPllb_completes hpllb hok2
      obtain rfl : c2 = true := hc
      exact ⟨false, t, (pllBGroup_branchB (toNat_ne_zero hf1)).trans e, nofun, nofun,
        fun h => absurd h hf1, fun _ _ _ => ⟨by rw [hd]; rfl, hp⟩⟩
    · obtain ⟨early, t, e, h⟩ := branchA_completes hx hok2 hok1 hf1 c2
      exact ⟨early, t, (pllBGroup_branchA (toNat_ne_zero hf1)).trans e, h⟩

end

/-- A frame, read as one equation of states. -/
theorem Frame.exists_eq {s t : State} (h : Frame s t) :
    ∃ ts, t = { s with div := t.div, rsh := t.rsh, pllb := t.pllb, owed := t.owed, diag := t.diag,
                       log := s.log ++ ts } := by
  obtain ⟨hxtal, hf, hfv, hpwr, hflt, hport, hpc, hparams, ⟨ts, hlog, -⟩, -⟩ := h
  refine ⟨ts, ?_⟩
  rw [← hxtal, ← hf, ← hfv, ← hpwr, ← hflt, ← hport, ← hpc, ← hparams, ← hlog]

theorem pllb_le_of_legal {p : BitVec 32} (h : PllbLegal p) : p.toNat ≤ 900000000 := by
  rcases h with rfl | ⟨-, h⟩
  · decide
  · exact h

end Sys2Proof.Machine

namespace Sys2Proof.Proofs

open Sys2Proof.Machine

/-- Settles O34: both parts complete, each outside the other's caches, and the strobe writes none. -/
theorem setFreqCompletes : Obligations.SetFreqCompletes := by
  intro f0 f1 f2 s hv hx hx' hlegal hwf
  obtain ⟨⟨hok0, hok1⟩, hok2⟩ : (freqOk f0.toNat = true ∧ freqOk f1.toNat = true) ∧
      freqOk f2.toNat = true := by
    simpa only [Instr.wellFormed, Bool.and_eq_true] using hwf
  obtain ⟨u, h0, hch0⟩ := channel0_completes (c0 := changed .ch0 f0 s)
    (s := Claims.latched f0 f1 f2 s) ⟨hx, hx'⟩ hok0
  have hfoot0 := channel0_footprint (changed .ch0 f0 s) f0.toNat (Claims.latched f0 f1 f2 s)
  rw [h0] at hfoot0
  obtain ⟨hxtal, hpllb⟩ := channel0_done_keeps h0
  obtain ⟨early, v, h1, hgroup⟩ := pllBGroup_completes (s := u)
    (by rw [XtalInRange, hxtal]; exact ⟨hx, hx'⟩) hok2 hok1
    (by rw [hpllb]; exact pllb_le_of_legal hlegal) (changed .ch1 f1 s) (changed .ch2 f2 s)
  have hfoot1 := pllBGroup_footprint (changed .ch1 f1 s) (changed .ch2 f2 s) f1.toNat f2.toNat u
  rw [h1] at hfoot1
  have hdone := setFreq_done h0 h1
  have hframe := setFreq_frame f0 f1 f2 s
  rw [hdone] at hframe
  obtain ⟨ts, ht⟩ := hframe.1.exists_eq
  have hgroup := hgroup.of_channel0 hfoot0.1
  refine ⟨Claims.finished early v, ts, exec_done hv hdone, ht, fun hc => ?_, fun hc => ?_, ?_, ?_⟩
  · obtain ⟨off, on⟩ := (hch0 hc).of_after hfoot1.1 fun h => h rfl
    exact ⟨off, on⟩
  · exact ⟨hgroup.ch1Off hc, hgroup.ch1On hc⟩
  · intro hf1 hc
    obtain ⟨off, on⟩ := hgroup.ch2Alone hf1 hc
    exact ⟨off, on⟩
  · exact hgroup.ch2Derived

end Sys2Proof.Proofs

/-! ### The end of a command from a healthy block -/

namespace Sys2Proof.Machine

open Sys2Proof.Claims

section
variable {α : Type} {m : Ran α} {Q : α → State → Prop} {R : Cause → State → Prop}

theorem Ran.Spec.of_done {a : α} {u : State} (h : m.Spec Q R) (e : m = .done a u) : Q a u := by
  rw [e] at h
  exact h

theorem Ran.Spec.of_raised {c : Cause} {u : State} (h : m.Spec Q R) (e : m = .raised c u) :
    R c u := by
  rw [e] at h
  exact h

end

/-- A healthy block's command runs to its end, or takes fault entry where its body raises. -/
theorem exec_next_of_healthy {i : Instr} {s t : State} (hv : s.flt.v = false)
    (h : exec i s = .next t) :
    body i s = .done () t ∨
    ∃ c u, body i s = .raised c u ∧ t = faulted c.code i.opcode.byte u := by
  cases hb : body i s with
  | done a u =>
    rw [exec_done hv hb] at h
    cases h
    exact .inl rfl
  | raised c u =>
    rw [exec_raised_at hv hb] at h
    cases h
    exact .inr ⟨c, u, rfl, rfl⟩

/-! ### INIT as one record (43_controller.md R181) -/

theorem initBlock_eq (p0 p1 p2 : BitVec 2) (s : State) :
    initBlock p0 p1 p2 s =
      { s with
        pwr := ⟨p0, p1, p2⟩
        log := s.log ++ [.single (ctrlReg .ch0 s) 0x80, .single (ctrlReg .ch1 s) 0x80,
          .single (ctrlReg .ch2 s) 0x80]
        div := .all 0
        f := .all 0
        fv := .all true } := by
  simp only [initBlock, disableChannel_ch2_ch1, disableChannel_log, List.append_assoc]
  rfl

end Sys2Proof.Machine

namespace Sys2Proof.Proofs

open Sys2Proof.Machine

/-- Settles O30, by the three disables in channel order. -/
theorem initCommand : Obligations.InitCommand := by
  intro p0 p1 p2 s hv
  have hbody : body (.init p0 p1 p2) s = .done () (initBlock p0 p1 p2 s) := rfl
  rw [exec_done hv hbody, initBlock_eq]
  rfl

/-- Settles O31, by the check of the operand. -/
theorem setXtalCommand : Obligations.SetXtalCommand := by
  intro x rst s
  refine ⟨opcodeOf_encode _, fun hv => ?_⟩
  rcases setXtal_cases x rst s with ⟨hx, e⟩ | ⟨hx, e⟩
  · exact ⟨fun _ => exec_raised (i := .setXtal x rst) hv e, fun h => absurd hx h⟩
  · refine ⟨fun h => absurd h hx, fun _ => (exec_done (i := .setXtal x rst) hv e).trans ?_⟩
    cases rst
    · simp only [Bool.false_eq_true, if_false, List.append_nil]
      rfl
    · rfl

/-- Settles O40: INIT latches three zeros, which the SET_FREQ then requests. -/
theorem allOffAfterInitEmitsNothing : Obligations.AllOffAfterInitEmitsNothing := by
  intro p0 p1 p2 s hv
  have hsame := setFreq_latched (f0 := 0) (f1 := 0) (f2 := 0) (s := initBlock p0 p1 p2 s) rfl rfl
  exact ⟨initBlock p0 p1 p2 s, exec_done hv rfl, exec_done (i := .setFreq 0 0 0) hv hsame⟩

end Sys2Proof.Proofs

/-! ### The paths of SET_FREQ (43_controller.md R187-R199) -/

namespace Sys2Proof.Machine

open Sys2Proof.Claims

/-! R222: the part that raises has written nothing. -/

theorem programChannel_raised_state {k : Channel} {f : Nat} {immediate : Bool} {s t : State}
    {c : Cause} (h : programChannel k f immediate s = .raised c t) : t = s :=
  (programChannel_footprint k f immediate s).of_raised h

theorem ch2Frac_raised_state {p : BitVec 32} {f : Nat} {s t : State} {c : Cause} (hf : f ≠ 0)
    (h : ch2Frac p.toNat f s = .raised c t) : t = s :=
  (ch2Frac_footprint p.toNat f s p.isLt (Nat.pos_of_ne_zero hf)).of_raised h

section
variable {f0 f1 f2 : Nat} {c1 c2 : Bool} {s t : State} {c : Cause}

theorem channel0_raised (hf : f0 ≠ 0) (h : programChannel .ch0 f0 false s = .raised c t) :
    channel0 true f0 s = .raised c s := by
  rw [channel0, if_pos rfl, if_neg hf, h, andThen_raised, programChannel_raised_state h]

theorem channel2FromPllb_zero (s : State) :
    channel2FromPllb 0 s = .done false (disableChannel .ch2 s) := rfl

theorem channel2FromPllb_derived (hf : f2 ≠ 0) (h : ch2Frac s.pllb.toNat f2 s = .done () t) :
    channel2FromPllb f2 s = .done false t := by
  rw [channel2FromPllb_of_ne hf, h, andThen_done]

theorem channel2FromPllb_raised (hf : f2 ≠ 0) (h : ch2Frac s.pllb.toNat f2 s = .raised c t) :
    channel2FromPllb f2 s = .raised c s := by
  rw [channel2FromPllb_of_ne hf, h, andThen_raised, ch2Frac_raised_state hf h]

theorem branchA_raised (h : programChannel .ch1 f1 false s = .raised c t) :
    branchA f1 f2 s = .raised c s := by
  rw [branchA, h, andThen_raised, programChannel_raised_state h]

theorem branchC_programmed {res : Option Nat}
    (h : programChannel .ch2 f2 true (disableChannel .ch1 s) = .done res t) :
    branchC f2 s = .done false t := by
  rw [branchC, h, andThen_done]

theorem branchC_raised (h : programChannel .ch2 f2 true (disableChannel .ch1 s) = .raised c t) :
    branchC f2 s = .raised c (disableChannel .ch1 s) := by
  rw [branchC, h, andThen_raised, programChannel_raised_state h]

/-- R189: with channels 1 and 2 unchanged the group does nothing. -/
theorem pllBGroup_unchanged {g1 g2 : BitVec 32} {u : State} (h1 : Unchanged .ch1 g1 u)
    (h2 : Unchanged .ch2 g2 u) (f1 f2 : Nat) (s : State) :
    pllBGroup (changed .ch1 g1 u) (changed .ch2 g2 u) f1 f2 s = .done false s := by
  rw [changed_eq_false_iff.2 h1, changed_eq_false_iff.2 h2]
  rfl

end

theorem setFreq_channel0_raised {f0 f1 f2 : BitVec 32} {s u : State} {c : Cause}
    (h0 : channel0 (changed .ch0 f0 s) f0.toNat (latched f0 f1 f2 s) = .raised c u) :
    setFreq f0 f1 f2 s = .raised c u := by
  have hch0 : channel0 (changed .ch0 f0 s) f0.toNat (latch f0 f1 f2 s) = .raised c u := h0
  simp only [setFreq, hch0, andThen_raised]

/-- R200: no strobe is due while none is owed. -/
theorem finished_of_not_owed {early : Bool} {s : State} (h : s.owed = false) :
    finished early s = s := by
  rw [← batchedStrobe_eq_finished, batchedStrobe_of_not_owed h]

end Sys2Proof.Machine

namespace Sys2Proof.Proofs

open Sys2Proof.Machine

/-- Settles O32: a part's fault is the body's, and two ends lead to the batched strobe. -/
theorem setFreqOrder : Obligations.SetFreqOrder := by
  intro f0 f1 f2 s hv c0 c1 c2
  refine ⟨fun c s1 h0 => ?_, fun s1 h0 => ⟨fun c s2 hg => ?_, fun early s2 hg => ?_⟩⟩
  · exact exec_raised_at hv (setFreq_channel0_raised h0)
  · exact exec_raised_at hv (setFreq_raised h0 hg)
  · exact exec_done hv (setFreq_done h0 hg)

/-- Settles O33, clause by clause: channel 0, then the branches A, B, C and D. -/
theorem branchSelection : Obligations.BranchSelection := by
  intro f0 f1 f2 s
  refine ⟨rfl, channel0_zero true s, fun _ _ => channel0_programmed, fun _ _ => channel0_raised,
    rfl, ?branchA, ?early, ?raised1, ?offB, ?derivedB, ?raisedB, ?branchC, ?raisedC, ?branchD⟩
  case branchA =>
    intro c2 pll t hf1 h1
    rw [pllBGroup_branchA hf1, branchA_programmed h1]
    refine ⟨?_, fun u hf2 h2 => channel2FromPllb_derived hf2 h2,
      fun c u hf2 h2 => channel2FromPllb_raised hf2 h2⟩
    rintro rfl
    exact channel2FromPllb_zero _
  case early =>
    intro c2 t hf1 h1
    rw [pllBGroup_branchA hf1, branchA_underflow h1]
  case raised1 =>
    intro c2 c t hf1 h1
    rw [pllBGroup_branchA hf1, branchA_raised h1]
  case offB =>
    rintro hf1 rfl
    exact pllBGroup_branchB hf1
  case derivedB =>
    intro u hf1 hf2 h2
    rw [pllBGroup_branchB hf1, channel2FromPllb_derived hf2 h2]
  case raisedB =>
    intro c u hf1 hf2 h2
    rw [pllBGroup_branchB hf1, channel2FromPllb_raised hf2 h2]
  case branchC =>
    intro c1 c2 res t hc hf2 h2
    rw [pllBGroup_branchC hc hf2, branchC_programmed h2]
  case raisedC =>
    intro c1 c2 c t hc hf2 h2
    rw [pllBGroup_branchC hc hf2, branchC_raised h2]
    rfl
  case branchD =>
    intro c1 c2 hc
    rw [pllBGroup_zero, if_pos hc]
    rfl

/-- Settles O36: channel 0's disable, an idle PLL-B group, and no strobe owed since the latch. -/
theorem channel0OffIsOneWrite : Obligations.Channel0OffIsOneWrite := by
  intro f1 f2 s hv hc0 hc1 hc2
  have hch0 : channel0 (changed .ch0 0 s) (0 : BitVec 32).toNat (Claims.latched 0 f1 f2 s) =
      .done () (Claims.disabled .ch0 (Claims.latched 0 f1 f2 s)) := by
    rw [changed_of_not_unchanged hc0]
    rfl
  have hbody := setFreq_done hch0 (pllBGroup_unchanged hc1 hc2 _ _ _)
  rw [finished_of_not_owed rfl] at hbody
  exact exec_done hv hbody

end Sys2Proof.Proofs

/-! ### The blocks a SET_FREQ writes (43_controller.md R185, R187, R189) -/

namespace Sys2Proof.Machine

open Sys2Proof.Claims

theorem regMap_wf_of_params_wf {p : Params} (h : p.wf = true) : p.regMap.wf = true := by
  rw [Params.wf, Bool.and_eq_true, Bool.and_eq_true] at h
  obtain ⟨⟨hmap, -⟩, -⟩ := h
  exact hmap

section
variable {K : Channel → Prop}

theorem Footprint.of_latch (f0 f1 f2 : BitVec 32) (s : State) :
    Footprint K s (latch f0 f1 f2 s) := .of_eq rfl rfl rfl rfl rfl rfl

theorem Footprint.of_setDiag (k : Channel) (s : State) : Footprint K s (setDiag k s) :=
  .of_eq rfl rfl rfl rfl rfl rfl

theorem Footprint.of_setFlt (flt : FaultReg) (s : State) : Footprint K s { s with flt := flt } :=
  .of_eq rfl rfl rfl rfl rfl rfl

theorem Footprint.of_batchedStrobe (early : Bool) (s : State) :
    Footprint K s (batchedStrobe early s) := by
  unfold batchedStrobe
  split
  · exact .of_strobe s
  · exact .refl s

theorem channel0_footprint_of {c0 : Bool} (h : c0 = true → K .ch0) (f0 : Nat) (s : State) :
    (channel0 c0 f0 s).Spec (fun _ => Footprint K s) (fun _ => Footprint K s) := by
  cases c0
  · exact .refl s
  · exact (channel0_footprint true f0 s).mono
      (fun _ _ hu => hu.1.mono fun _ hk => hk ▸ h rfl) fun _ _ hu => by rw [hu]; exact .refl s

theorem pllBGroup_footprint_of {c1 c2 : Bool} (h : c1 = true ∨ c2 = true → ∀ k, Group k → K k)
    (f1 f2 : Nat) (s : State) :
    (pllBGroup c1 c2 f1 f2 s).Spec (fun _ => Footprint K s) (fun _ => Footprint K s) := by
  by_cases hc : c1 = true ∨ c2 = true
  · exact (pllBGroup_footprint c1 c2 f1 f2 s).mono (fun _ _ hu => hu.1.mono (h hc))
      fun _ _ hu => hu.1.mono (h hc)
  · obtain ⟨rfl, rfl⟩ : c1 = false ∧ c2 = false := by simpa using hc
    exact .refl s

/-- SET_FREQ, ending or raising, works on the changed channels only, the two of PLL B as one. -/
theorem setFreq_footprint_of {f0 f1 f2 : BitVec 32} {s : State}
    (h0 : changed .ch0 f0 s = true → K .ch0)
    (hg : changed .ch1 f1 s = true ∨ changed .ch2 f2 s = true → ∀ k, Group k → K k) :
    (setFreq f0 f1 f2 s).Spec (fun _ => Footprint K s) (fun _ => Footprint K s) := by
  have hl : Footprint K s (latch f0 f1 f2 s) := .of_latch f0 f1 f2 s
  refine ((channel0_footprint_of h0 _ _).mono (fun _ _ => hl.trans) fun _ _ => hl.trans).andThen
    fun _ u hu => ?_
  refine ((pllBGroup_footprint_of hg _ _ u).mono (fun _ _ => hu.trans)
    fun _ _ => hu.trans).andThen fun early v hv => ?_
  exact hv.trans (.of_batchedStrobe early v)

theorem exec_setFreq_footprint_of {f0 f1 f2 : BitVec 32} {s t : State} (hv : s.flt.v = false)
    (h : exec (.setFreq f0 f1 f2) s = .next t) (h0 : changed .ch0 f0 s = true → K .ch0)
    (hg : changed .ch1 f1 s = true ∨ changed .ch2 f2 s = true → ∀ k, Group k → K k) :
    Footprint K s t := by
  rcases exec_next_of_healthy hv h with hd | ⟨c, u, hr, rfl⟩
  · exact (setFreq_footprint_of h0 hg).of_done hd
  · exact ((setFreq_footprint_of h0 hg).of_raised hr).trans (.of_setFlt _ u)

end

theorem pll_of_group {k : Channel} (h : Group k) : k.pll = .pllB := by
  cases k with
  | ch0 => exact absurd rfl h
  | ch1 | ch2 => rfl

/-- Channel 0's registers lie in blocks that work on the PLL-B group does not write. -/
theorem IsChannel0Reg.exists_block {m : RegMap} {a : Nat} (h : IsChannel0Reg m a) :
    ∃ b : Block, b.Has m a ∧ ¬ Block.Of Group b := by
  rcases h with h | h | h
  · exact ⟨.ctrl .ch0, by rw [h]; exact ⟨le_rfl, Nat.lt_succ_self _⟩, fun hk => hk rfl⟩
  · exact ⟨.pll .pllA, h, fun ⟨_, hk, hp⟩ => nomatch (pll_of_group hk).symm.trans hp⟩
  · exact ⟨.ms .ch0, h, fun hk => hk rfl⟩

/-- The PLL-B group's registers lie in blocks that work on channel 0 does not write. -/
theorem IsGroupReg.exists_block {m : RegMap} {a : Nat} (h : IsGroupReg m a) :
    ∃ b : Block, b.Has m a ∧ ¬ Block.Of (Only .ch0) b := by
  rcases h with h | h | h | h | h
  · exact ⟨.ctrl .ch1, by rw [h]; exact ⟨le_rfl, Nat.lt_succ_self _⟩, nofun⟩
  · exact ⟨.ctrl .ch2, by rw [h]; exact ⟨le_rfl, Nat.lt_succ_self _⟩, nofun⟩
  · exact ⟨.pll .pllB, h, by rintro ⟨_, rfl, hp⟩; cases hp⟩
  · exact ⟨.ms .ch1, h, nofun⟩
  · exact ⟨.ms .ch2, h, nofun⟩

end Sys2Proof.Machine

namespace Sys2Proof.Proofs

open Sys2Proof.Machine

/-- Settles O44: the command's work is that of the PLL-B group, or that of channel 0. -/
theorem unchangedChannelsAreUntouched : Obligations.UnchangedChannelsAreUntouched := by
  intro f0 f1 f2 s t hv hw h
  have hmap := regMap_wf_of_params_wf hw
  refine ⟨fun hc0 => ?_, fun hc1 hc2 => ?_⟩
  · have hfoot : Footprint Group s t := exec_setFreq_footprint_of hv h
      (by rw [changed_eq_false_iff.2 hc0]; exact nofun) fun _ _ hk => hk
    obtain ⟨hdiv, hrsh⟩ := hfoot.cache .ch0 fun hk => hk rfl
    refine ⟨hdiv, hrsh, fun a ha => ?_⟩
    obtain ⟨b, hb, hout⟩ := IsChannel0Reg.exists_block ha
    exact hfoot.readReg_eq hmap hout hb
  · have hfoot : Footprint (Only .ch0) s t := exec_setFreq_footprint_of hv h (fun _ => rfl)
      (by rw [changed_eq_false_iff.2 hc1, changed_eq_false_iff.2 hc2]; exact nofun)
    obtain ⟨hdiv1, hrsh1⟩ := hfoot.cache .ch1 nofun
    obtain ⟨hdiv2, hrsh2⟩ := hfoot.cache .ch2 nofun
    refine ⟨hdiv1, hrsh1, hdiv2, hrsh2, hfoot.pllb nofun, fun a ha => ?_⟩
    obtain ⟨b, hb, hout⟩ := IsGroupReg.exists_block ha
    exact hfoot.readReg_eq hmap hout hb

/-- Settles O43, by the frame of the body from the latched state on; only fault entry writes FLT. -/
theorem setFreqLatchesFirst : Obligations.SetFreqLatchesFirst := by
  intro f0 f1 f2 s t hv h
  rcases exec_next_of_healthy hv h with hd | ⟨c, u, hr, rfl⟩
  · obtain ⟨hframe, -⟩ := (setFreq_frame f0 f1 f2 s).of_done hd
    exact ⟨hframe.f, hframe.fv, hframe.xtal, hframe.pwr, hframe.port, hframe.pc, hframe.params,
      fun _ => hframe.flt⟩
  · obtain ⟨hframe, -⟩ := (setFreq_frame f0 f1 f2 s).of_raised hr
    exact ⟨hframe.f, hframe.fv, hframe.xtal, hframe.pwr, hframe.port, hframe.pc, hframe.params,
      nofun⟩

end Sys2Proof.Proofs

/-! ### The early return (43_controller.md R193, R196) -/

namespace Sys2Proof.Machine

open Sys2Proof.Claims

/-- An underflow of a changed channel 1 ends the group after its disable. -/
theorem pllBGroup_early {c1 : Bool} {f1 : Nat} (hc : c1 = true) (hf : 150000001 ≤ f1) (c2 : Bool)
    (f2 : Nat) (s : State) :
    pllBGroup c1 c2 f1 f2 s = .done true (setDiag .ch1 (disableChannel .ch1 s)) := by
  rw [hc, pllBGroup_branchA (by omega),
    branchA_underflow (programChannel_underflow (search_underflow hf))]

/-- Every channel but channel 2. -/
def NotCh2 (k : Channel) : Prop := k ≠ .ch2

/-- An early return, from the latch to the strobe, stays off channel 2. -/
theorem earlyReturn_footprint {f0 f1 f2 : BitVec 32} {s u : State}
    (h0 : channel0 (changed .ch0 f0 s) f0.toNat (latched f0 f1 f2 s) = .done () u) :
    Footprint NotCh2 s (finished true (setDiag .ch1 (disableChannel .ch1 u))) := by
  have hch0 : Footprint NotCh2 (latched f0 f1 f2 s) u :=
    (channel0_footprint_of (fun _ => nofun) _ _).of_done h0
  have hch1 : Footprint NotCh2 u (disableChannel .ch1 u) := .of_disableChannel (k := .ch1) nofun u
  rw [← batchedStrobe_eq_finished]
  exact (Footprint.of_latch f0 f1 f2 s).trans
    (hch0.trans (hch1.trans ((Footprint.of_setDiag .ch1 _).trans (.of_batchedStrobe true _))))

end Sys2Proof.Machine

namespace Sys2Proof.Proofs

open Sys2Proof.Machine

/-- Settles O38: the group's early return after channel 0's part, and nothing of channel 2's. -/
theorem earlyReturnLeavesChannel2Alone : Obligations.EarlyReturnLeavesChannel2Alone := by
  intro f0 f1 f2 s s1 hv hw hc1 hf1 h0
  have hgroup := pllBGroup_early (changed_of_not_unchanged hc1) hf1 (changed .ch2 f2 s) f2.toNat s1
  have hfoot := earlyReturn_footprint h0
  obtain ⟨hdiv, hrsh⟩ := hfoot.cache .ch2 fun hk => hk rfl
  obtain ⟨-, hpllb⟩ := channel0_done_keeps h0
  have hmap := regMap_wf_of_params_wf hw
  refine ⟨_, exec_done hv (setFreq_done h0 hgroup), rfl, rfl, hdiv, hrsh, hpllb, ?_⟩
  rintro a (rfl | ha)
  · exact hfoot.readReg_eq hmap (c := .ctrl .ch2) (fun hk => hk rfl) ⟨le_rfl, Nat.lt_succ_self _⟩
  · exact hfoot.readReg_eq hmap (c := .ms .ch2) (fun hk => hk rfl) ha

end Sys2Proof.Proofs

/-! ### The causes SET_FREQ raises (43_controller.md R202) -/

namespace Sys2Proof.Machine

/-- Whatever a part of SET_FREQ raises is one of the three causes. -/
def RaisesSetFreqCauses {α : Type} (m : Ran α) : Prop :=
  m.Spec (fun _ _ => True) fun c _ => SetFreqCause c

theorem RaisesSetFreqCauses.andThen {α β : Type} {m : Ran α} {k : α → State → Ran β}
    (hm : RaisesSetFreqCauses m) (hk : ∀ a s, RaisesSetFreqCauses (k a s)) :
    RaisesSetFreqCauses (m.andThen k) := Ran.Spec.andThen hm fun a s _ => hk a s

theorem RaisesSetFreqCauses.of_done {α : Type} (a : α) (s : State) :
    RaisesSetFreqCauses (.done a s) := trivial

/-- R158: FRAC_NUM_RANGE is not among them, for with the multiplier in range the numerator fits. -/
theorem programChannel_causes (k : Channel) (f : Nat) (immediate : Bool) (s : State) :
    RaisesSetFreqCauses (programChannel k f immediate s) := by
  refine (programChannel_frame k f immediate s).mono (fun _ _ _ => trivial) ?_
  rintro c u ⟨-, hc | ⟨-, d, r, pll, hs, hx, ⟨-, hmult⟩, hnum⟩⟩
  · exact hc
  · obtain ⟨-, hpll, -⟩ := search_ok_bounds hs
    have hpos : 1 ≤ s.xtal.toNat := Nat.one_le_iff_ne_zero.2 (toNat_ne_zero hx)
    have hle := pllParams_num_le_of_mult_le hpos hpll hmult
    omega

theorem channel0_causes (c0 : Bool) (f0 : Nat) (s : State) :
    RaisesSetFreqCauses (channel0 c0 f0 s) := by
  unfold channel0
  split
  · split
    · exact .of_done _ _
    · exact (programChannel_causes .ch0 f0 false s).andThen fun _ _ => .of_done _ _
  · exact .of_done _ _

theorem channel2FromPllb_causes (f2 : Nat) (s : State) :
    RaisesSetFreqCauses (channel2FromPllb f2 s) :=
  (channel2FromPllb_frame f2 s).mono (fun _ _ _ => trivial) fun _ _ h => .inl h.2

theorem branchA_causes (f1 f2 : Nat) (s : State) : RaisesSetFreqCauses (branchA f1 f2 s) := by
  refine (programChannel_causes .ch1 f1 false s).andThen fun res u => ?_
  cases res with
  | none => exact .of_done _ _
  | some pll => exact channel2FromPllb_causes f2 _

theorem pllBGroup_causes (c1 c2 : Bool) (f1 f2 : Nat) (s : State) :
    RaisesSetFreqCauses (pllBGroup c1 c2 f1 f2 s) := by
  unfold pllBGroup
  split
  · split
    · split
      · exact branchA_causes f1 f2 s
      · exact channel2FromPllb_causes f2 s
    · split
      · exact (programChannel_causes .ch2 f2 true _).andThen fun _ _ => .of_done _ _
      · exact .of_done _ _
  · exact .of_done _ _

theorem setFreq_causes (f0 f1 f2 : BitVec 32) (s : State) :
    RaisesSetFreqCauses (setFreq f0 f1 f2 s) :=
  (channel0_causes _ _ _).andThen fun _ _ => (pllBGroup_causes _ _ _ _ _).andThen fun _ _ =>
    .of_done _ _

end Sys2Proof.Machine

namespace Sys2Proof.Proofs

open Sys2Proof.Machine

/-- Settles O50: a SET_FREQ that ends keeps FLT, and one that raises does so with one of the three. -/
theorem setFreqRaisesOnlyThreeCauses : Obligations.SetFreqRaisesOnlyThreeCauses := by
  intro f0 f1 f2 s t hv h ht
  rcases exec_next_of_healthy hv h with hd | ⟨c, u, hr, rfl⟩
  · obtain ⟨hframe, -⟩ := (setFreq_frame f0 f1 f2 s).of_done hd
    have hflt : t.flt = s.flt := hframe.flt
    rw [hflt, hv] at ht
    cases ht
  · rcases (setFreq_causes f0 f1 f2 s).of_raised hr with rfl | rfl | rfl
    · exact .inr (.inr rfl)
    · exact .inl rfl
    · exact .inr (.inl rfl)

end Sys2Proof.Proofs

/-! ### A faulted block (60_exceptions.md R224) -/

namespace Sys2Proof.Machine

theorem exec_faulted (i : Instr) {s : State} (hv : s.flt.v = true) : exec i s = .next s :=
  (exec_eq_runCommand i s).trans (runCommand_faulted _ _ hv)

theorem execIllegal_faulted (w : CmdWord) {s : State} (hv : s.flt.v = true) :
    execIllegal w s = .next s := runCommand_faulted _ _ hv

/-- A faulted block takes a word off the port, whether it is a command or not, and does nothing more. -/
theorem step_command_faulted {s : State} {w : CmdWord} {rest : List HostInput}
    (hv : s.flt.v = true) (hport : s.port = .command w :: rest) :
    step s = .next { s with port := rest, pc := s.pc + 1 } := by
  simp only [step, takeInput_command hport]
  cases decode w with
  | instr i => exact exec_faulted i hv
  | rejected r => exact execIllegal_faulted w hv

/-! ### What a command raises (60_exceptions.md R221, R222)

A body that ends has left FLT alone; one that raises does so with a cause that R221 gives its command. A
codec function raises in the state it was given, for every check precedes its first write. -/

@[simp] theorem singles_flt (reg : Byte) (vs : List Byte) (s : State) :
    (singles reg vs s).flt = s.flt := by rw [singles_eq]

theorem encPll_raises (p : Pll) (a b c : Nat) (s : State) :
    (encPll p a b c s).Spec (fun _ u => u.flt = s.flt)
      (fun e u => u = s ∧ raisedBy e Opcode.encPll.byte) :=
  guardFault_spec (fun _ => ⟨rfl, .inl rfl⟩) fun _ => guardFault_spec (fun _ => ⟨rfl, .inl rfl⟩)
    fun _ => guardFault_spec (fun _ => ⟨rfl, .inl rfl⟩) fun _ => burst_flt s _ _

theorem encMsInt_raises (k : Channel) (d r : Nat) (s : State) :
    (encMsInt k d r s).Spec (fun _ u => u.flt = s.flt)
      (fun e u => u = s ∧ raisedBy e Opcode.encMsInt.byte) :=
  guardFault_spec (fun _ => ⟨rfl, .inl rfl⟩) fun _ => guardFault_spec (fun _ => ⟨rfl, .inl rfl⟩)
    fun _ => burst_flt s _ _

theorem encMsFrac_raises (k : Channel) (d b c r : Nat) (s : State) :
    (encMsFrac k d b c r s).Spec (fun _ u => u.flt = s.flt)
      (fun e u => u = s ∧ raisedBy e Opcode.encMsFrac.byte) :=
  guardFault_spec (fun _ => ⟨rfl, .inr rfl⟩) fun _ => guardFault_spec (fun _ => ⟨rfl, .inr rfl⟩)
    fun _ => guardFault_spec (fun _ => ⟨rfl, .inr rfl⟩) fun _ =>
    guardFault_spec (fun _ => ⟨rfl, .inr (.inl rfl)⟩) fun _ => singles_flt _ _ s

theorem SetFreqCause.raisedBy_setFreq {c : Cause} (h : SetFreqCause c) :
    raisedBy c Opcode.setFreq.byte := by
  rcases h with rfl | rfl | rfl
  · exact .inr (.inr rfl)
  · exact rfl
  · exact .inr rfl

theorem body_raises (i : Instr) (s : State) :
    (body i s).Spec (fun _ u => u.flt = s.flt) (fun c _ => raisedBy c i.opcode.byte) := by
  cases i with
  | init p0 p1 p2 => exact rfl
  | setXtal x rst =>
    rcases setXtal_cases x rst s with ⟨-, e⟩ | ⟨-, e⟩ <;> rw [body, e]
    · exact rfl
    · cases rst <;> exact rfl
  | setFreq f0 f1 f2 =>
    exact ((setFreq_frame f0 f1 f2 s).and (setFreq_causes f0 f1 f2 s)).mono
      (fun _ _ ⟨⟨hframe, _⟩, _⟩ => hframe.flt) fun _ _ ⟨_, hcause⟩ => hcause.raisedBy_setFreq
  | encPll sel a b c =>
    exact withSel_spec (fun _ => .inl rfl) fun p _ =>
      (encPll_raises p _ _ _ s).mono (fun _ _ h => h) fun _ _ h => h.2
  | encMsInt sel d r =>
    exact withSel_spec (fun _ => .inr (.inl rfl)) fun k _ =>
      (encMsInt_raises k _ _ s).mono (fun _ _ h => h) fun _ _ h => h.2
  | encMsFrac sel d b c r =>
    exact withSel_spec (fun _ => .inr (.inr (.inl rfl))) fun k _ =>
      (encMsFrac_raises k _ _ _ _ s).mono (fun _ _ h => h) fun _ _ h => h.2
  | disable ch =>
    exact withSel_spec (fun _ => .inr (.inr (.inr rfl))) fun k _ => disableChannel_flt s k

/-- R222: fault entry writes the cause and the opcode byte, so FLT is legal if the cause is one that the
opcode raises. -/
theorem runCommand_keepsFaultLegal {op : Byte} {body : State → Ran Unit} {s t : State}
    (hs : FaultLegal s.flt)
    (hbody : (body s).Spec (fun _ u => u.flt = s.flt) (fun c _ => raisedBy c op))
    (h : runCommand op body s = .next t) : FaultLegal t.flt :=
  runCommand_next (P := fun t => FaultLegal t.flt) h (fun _ => hs) fun _ =>
    hbody.mono (fun _ _ hu => hu ▸ hs) fun c _ hc => .inr ⟨c, rfl, rfl, hc⟩

theorem exec_keepsFaultLegal {i : Instr} {s t : State} (hs : FaultLegal s.flt)
    (h : exec i s = .next t) : FaultLegal t.flt :=
  runCommand_keepsFaultLegal hs (body_raises i s) ((exec_eq_runCommand i s).symm.trans h)

/-- Any byte may stand in FLT.OP of an ILLEGAL_COMMAND. -/
theorem execIllegal_keepsFaultLegal {w : CmdWord} {s t : State} (hs : FaultLegal s.flt)
    (h : execIllegal w s = .next t) : FaultLegal t.flt :=
  runCommand_keepsFaultLegal (body := .raised .illegalCommand) hs trivial h

end Sys2Proof.Machine

namespace Sys2Proof.Proofs

open Sys2Proof.Machine

/-- Settles O51: reset clears FLT, and a word, command or not, keeps it legal by what it can raise. -/
theorem stepKeepsFaultRegisterLegal : Obligations.StepKeepsFaultRegisterLegal := by
  intro s t hs h
  rcases step_cases h with ⟨-, rfl⟩ | ⟨rest, -, rfl⟩ | ⟨w, rest, -, ⟨i, -, hi⟩ | ⟨r, -, hr⟩⟩
  · exact hs
  · exact .inl rfl
  · exact exec_keepsFaultLegal (by exact hs) hi
  · exact execIllegal_keepsFaultLegal (by exact hs) hr

/-- Settles O48: fault entry writes FLT over the state of the raise, which in a codec function is the
state it was given. -/
theorem faultEntryKeepsEarlierEffects : Obligations.FaultEntryKeepsEarlierEffects := by
  refine ⟨fun op body c s s' hv hb => runCommand_raised op hv hb, fun p a b c e s s' h => ?_,
    fun k d r e s s' h => ?_, fun k d b c r e s s' h => ?_⟩
  · exact ((encPll_raises p a b c s).of_raised h).1
  · exact ((encMsInt_raises k d r s).of_raised h).1
  · exact ((encMsFrac_raises k d b c r s).of_raised h).1

/-- Settles O49: on an empty port or a command word a faulted block keeps FLT, so only reset is left. -/
theorem faultedBlockRefusesEveryCommand : Obligations.FaultedBlockRefusesEveryCommand := by
  intro s hv
  refine ⟨fun i => exec_faulted i hv, fun w rest hport => ⟨_, step_command_faulted hv hport, rfl⟩,
    fun t h hne => ?_⟩
  rcases step_cases h with ⟨-, rfl⟩ | ⟨rest, hport, -⟩ | ⟨w, rest, hport, -⟩
  · exact absurd rfl hne
  · exact ⟨rest, hport⟩
  · rw [step_command_faulted hv hport] at h
    cases h
    exact absurd rfl hne

/-- Settles O55: with an empty port there is no input to take. -/
theorem nothingHappensWithoutAnInput : Obligations.NothingHappensWithoutAnInput := by
  intro s hport
  simp only [step, takeInput_nil hport]

end Sys2Proof.Proofs

/-! ### No strobe from the codec (70_reset_and_hazards.md R255) -/

namespace Sys2Proof.Machine

/-- In a well-formed map the PLL-reset register lies in no other block. -/
theorem Transaction.InBlock.ne_strobe {m : RegMap} (hw : m.wf = true) {b : Block} (hb : b ≠ .pllReset)
    {t : Transaction} (ht : t.InBlock m b) (v : Byte) : t ≠ .single m.pllReset v := by
  rcases ht with ⟨i, w, hi, rfl⟩ | ⟨vs, -, rfl⟩
  · intro h
    have hreg : (b.base m + BitVec.ofNat 8 i).toNat = (Block.pllReset.base m).toNat :=
      congrArg BitVec.toNat (Transaction.single.inj h).1
    have happart := Block.apart hw hb
    have hfit := Block.fits hw b
    rw [show Block.pllReset.size = 1 from rfl] at happart
    rw [BitVec.toNat_add, BitVec.toNat_ofNat] at hreg
    omega
  · nofun

/-- OWED stays, and the log grows by writes outside the PLL-reset register only. -/
structure StrobeFree (s t : State) : Prop where
  owed : t.owed = s.owed
  log : ∃ ts, t.log = s.log ++ ts ∧
    ∀ x ∈ ts, ∃ b : Block, b ≠ .pllReset ∧ x.InBlock s.params.regMap b

namespace StrobeFree

theorem refl (s : State) : StrobeFree s s := ⟨rfl, [], by simp, by simp⟩

theorem of_emit {t : Transaction} {s : State} (b : Block) (hb : b ≠ .pllReset)
    (h : t.InBlock s.params.regMap b) : StrobeFree s (emit t s) :=
  ⟨rfl, [t], rfl, by simpa using ⟨b, hb, h⟩⟩

theorem of_singles (k : Channel) {vs : List Byte} (s : State) (h : vs.length = 8) :
    StrobeFree s (singles (msBase k s) vs s) := by
  rw [singles_eq]
  refine ⟨rfl, _, rfl, fun t ht => ?_⟩
  obtain ⟨i, v, hi, rfl⟩ := mem_singleList ht
  exact ⟨.ms k, nofun, .inl ⟨i, v, by rwa [h] at hi, rfl⟩⟩

theorem of_disableChannel (k : Channel) (s : State) : StrobeFree s (disableChannel k s) := by
  have hctrl : StrobeFree s (single (ctrlReg k s) Config.ctrlPdn s) :=
    .of_emit (.ctrl k) nofun (.inl ⟨0, Config.ctrlPdn, Nat.one_pos, by simp [Block.base, ctrlReg]⟩)
  exact ⟨hctrl.owed, hctrl.log⟩

end StrobeFree

/-- R255: a codec command ends with its writes made, or raises before any. -/
theorem body_strobeFree {i : Instr} (hi : ¬ Claims.IsController i) (s : State) :
    (body i s).Spec (fun _ => StrobeFree s) (fun _ => StrobeFree s) := by
  have same : StrobeFree s s := .refl s
  cases i with
  | init | setXtal | setFreq => exact absurd trivial hi
  | encPll sel a b c =>
    exact withSel_spec (fun _ => same) fun p _ =>
      guardFault_spec (fun _ => same) fun _ => guardFault_spec (fun _ => same) fun _ =>
      guardFault_spec (fun _ => same) fun _ => .of_emit (.pll p) nofun (.inr ⟨_, rfl, rfl⟩)
  | encMsInt sel d r =>
    exact withSel_spec (fun _ => same) fun k _ =>
      guardFault_spec (fun _ => same) fun _ => guardFault_spec (fun _ => same) fun _ =>
      .of_emit (.ms k) nofun (.inr ⟨_, rfl, rfl⟩)
  | encMsFrac sel d b c r =>
    exact withSel_spec (fun _ => same) fun k _ =>
      guardFault_spec (fun _ => same) fun _ => guardFault_spec (fun _ => same) fun _ =>
      guardFault_spec (fun _ => same) fun _ => guardFault_spec (fun _ => same) fun _ =>
      .of_singles k s (length_pBlock _ _)
  | disable ch => exact withSel_spec (fun _ => same) fun k _ => .of_disableChannel k s

/-! ### The reset input (70_reset_and_hazards.md R250) -/

theorem step_reset {s : State} {rest : List HostInput} (h : s.port = .reset :: rest) :
    step s = .next (resetBlock { s with port := rest }) := by
  simp only [step, takeInput_reset h]

theorem params_defaults_wf : Params.defaults.wf = true := by decide

end Sys2Proof.Machine

namespace Sys2Proof.Proofs

open Sys2Proof.Machine

/-- Settles O15: a codec command writes the PLL and multisynth blocks and the control bytes, which the
map keeps apart from the PLL-reset register. -/
theorem codecCommandsNeverStrobe : Obligations.CodecCommandsNeverStrobe := by
  intro i s t hi hw h
  obtain ⟨u, flt, rfl, hu⟩ := exec_next h
  have hfree : StrobeFree s u := by
    rcases hu with rfl | rfl
    · exact .refl u
    · exact (body_strobeFree hi s).state
  obtain ⟨howed, ts, hts, hin⟩ := hfree
  refine ⟨howed, ts, hts, fun x hx v => ?_⟩
  obtain ⟨b, hb, hx⟩ := hin x hx
  exact hx.ne_strobe (regMap_wf_of_params_wf hw) hb v

/-- Settles O42: a disable leaves F and FV, so the latched frequencies are the requested ones. -/
theorem disabledChannelStaysDownOnTheSameRequest :
    Obligations.DisabledChannelStaysDownOnTheSameRequest := by
  intro ch s hv hch hfv
  obtain ⟨k, hk⟩ := exists_channel_of_le hch
  have hdisable : body (.disable ch) s = .done () (disableChannel k s) :=
    withSel_some (channel_ofSel_of_eq hk) s _
  have hsame := setFreq_latched (s := disableChannel k s) (f0 := s.f.ch0) (f1 := s.f.ch1)
    (f2 := s.f.ch2) rfl hfv
  exact ⟨disableChannel k s, exec_done hv hdisable, exec_done (i := .setFreq _ _ _) hv hsame⟩

/-- Settles O53: the input taken off the port is the reset. -/
theorem resetInput : Obligations.ResetInput := fun _ _ hport => step_reset hport

/-- Settles O54: every cached divider, PLLB, FLT and the log are clear. -/
theorem resetMeetsTheInvariants : Obligations.ResetMeetsTheInvariants := by
  refine ⟨⟨fun k => ?div, .inl rfl⟩, .inl rfl, nofun, fun k => ?cache, params_defaults_wf⟩
  case div => exact .inl (PerChannel.get_all k 0)
  case cache => exact truthfulAt_of_div_zero (PerChannel.get_all k 0)

end Sys2Proof.Proofs
